-- ==== Sys2Proof/Word.lean ====
section
/-! DEFINITION. The word types of the display block: command words, wire frames, bytes. -/

namespace Sys2Proof

/-- One 32-bit word of a command frame or of a response (30_encoding R70, R86). -/
abbrev Word := BitVec 32

/-- One byte: an opcode, a header field, a register address, a data byte. -/
abbrev Byte := BitVec 8

/-- One 16-bit wire frame, address in bits 15:8, data in bits 7:0 (30_encoding R87). -/
abbrev Frame := BitVec 16

/-- One bus transaction: its frames in the order they are shifted out (10_state R34). -/
abbrev Transaction := List Frame

end Sys2Proof
end

