-- ==== Sys2Proof/Config.lean ====
section
/-! DEFINITION. The instance configuration (00_scope R9, R10, 10_state R29, R30), the open bus parameters (00_scope R12)
and the free values: what the spec leaves to "any value" (93_implementation_defined U5 to U8, U12). A free value is an
uninterpreted constant applied to a draw number, so a statement about it holds whatever it is. -/

namespace Sys2Proof

/-- The four rotations of a descriptor (10_state R30). -/
inductive Rotation where
  | deg0
  | cw90
  | deg180
  | ccw90
deriving DecidableEq, Repr

/-- One device descriptor `DEV[i]` (10_state R30): the top-left pixel of the device's cell as two signed 32-bit words,
its rotation and its mirror flag. -/
structure Descriptor where
  tx     : Word
  ty     : Word
  rot    : Rotation
  mirror : Bool
deriving DecidableEq, Repr

/-- The configuration of one instance of the block, which no command changes (10_state R20, R29). The device count `n` is
the length of the descriptor table. -/
structure Instance where
  width  : Nat
  height : Nat
  dev    : List Descriptor
deriving DecidableEq, Repr

/-- `n`, the number of devices in the chain (00_scope R10). -/
def Instance.n (c : Instance) : Nat := c.dev.length

/-- The configurations the spec admits: `WIDTH` and `HEIGHT` in `1 .. 2^31 - 1` (00_scope R9) and at least one device
(00_scope R10). A descriptor is never checked (10_state R31). -/
def Instance.legal (c : Instance) : Bool :=
  decide (1 ≤ c.width) && decide (c.width ≤ 2147483647) &&
  decide (1 ≤ c.height) && decide (c.height ≤ 2147483647) && decide (1 ≤ c.n)

/-- The instance `State.reset` is built with. DESIGN CHOICE (log 1), unsafe for a claim that uses these numbers: the spec
leaves `WIDTH`, `HEIGHT`, `n` and `DEV[]` as parameters. 32 by 16 is the size the source's own test properties use; eight
unrotated cells tile it, left to right and top to bottom. -/
def Instance.default : Instance where
  width := 32
  height := 16
  dev := [⟨0, 0, .deg0, false⟩, ⟨8, 0, .deg0, false⟩, ⟨16, 0, .deg0, false⟩, ⟨24, 0, .deg0, false⟩,
          ⟨0, 8, .deg0, false⟩, ⟨8, 8, .deg0, false⟩, ⟨16, 8, .deg0, false⟩, ⟨24, 8, .deg0, false⟩]

/-- `FB_INIT` (00_scope R13, 10_state R37): row `y` of the frame buffer after the reset with draw number `draw`. Free value
(log 2); State keeps its low `WIDTH` bits. -/
opaque Config.fbInit (draw y : Nat) : Nat

/-- `DEV_INIT` (00_scope R13, 70_reset_and_hazards R252): register `addr` of device `dev` at power-up. Free value (log 3). -/
opaque Config.devInit (dev addr : Nat) : Byte

/-- The level of `DIN` between transactions (10_state R33, 93 U12). Free value (log 4). -/
opaque Config.freeDin (draw : Nat) : Bool

/-- Register `addr` of device `dev` after a frame whose effect the spec leaves at any value (42_display_driver R192,
R193). Free value (log 5). -/
opaque Config.freeByte (draw dev addr : Nat) : Byte

/-- `F_CLK` in hertz, an open parameter (00_scope R12). No rule of the model depends on it (log 17). -/
opaque Config.fClk : Nat

/-- `T_CSH` in nanoseconds, an open parameter (00_scope R12). No rule of the model depends on it (log 17). -/
opaque Config.tCsh : Nat

end Sys2Proof
end

