-- ==== Sys2Proof/Syntax.lean ====
section
/-! DEFINITION. The instructions: one constructor per row of `spec/opcode_table.json`, twenty `ESPC-CMD` commands
(30_encoding R81) and fourteen wire frames (30_encoding R87); and the names their encoding is written with. -/

namespace Sys2Proof

/-- The source element width `S` of a frame-buffer write (00_scope R11). -/
inductive ElemWidth where
  | w8
  | w16
  | w32
  | w64
deriving DecidableEq, Repr

/-- The instruction set. Words are operand words as sent: coordinates, widths and heights are read signed, starts,
lengths and values unsigned (30_encoding R77). `V` and the rows of a write are `N`-bit and `S`-bit values, held as the
numbers `0 .. 2^N - 1` that 00_scope R14 makes them. -/
inductive Instr where
  /-- `BR.SET.<v> N, start, length, V` (40_bitrange R102). -/
  | brSet (v : Bool) (n : Byte) (start len : Word) (val : Nat)
  /-- `BR.FLIP N, start, length, V` (40_bitrange R105). -/
  | brFlip (n : Byte) (start len : Word) (val : Nat)
  /-- `BR.EXTRACT N, M, start, V` (40_bitrange R108). -/
  | brExtract (n m : Byte) (start : Word) (val : Nat)
  /-- `BR.REVERSE N, V` (40_bitrange R111). -/
  | brReverse (n : Byte) (val : Nat)
  /-- `FB.WRITE S, x, y, width, height, rows` (41_framebuffer R131). -/
  | fbWrite (s : ElemWidth) (x y wd ht : Word) (rows : List Nat)
  /-- `FB.CLEAR x, y, width, height` (41_framebuffer R134). -/
  | fbClear (x y wd ht : Word)
  /-- `FB.CLEARALL` (41_framebuffer R136). -/
  | fbClearAll
  /-- `FB.TURNDOT.<on> x, y` (41_framebuffer R137). -/
  | fbTurnDot (on : Bool) (x y : Word)
  /-- `FB.EXTH.<rev> x, y` (41_framebuffer R140). -/
  | fbExtH (rev : Bool) (x y : Word)
  /-- `FB.EXTV.<rev> x, y` (41_framebuffer R141). -/
  | fbExtV (rev : Bool) (x y : Word)
  /-- `FB.WIDTH` (41_framebuffer R143). -/
  | fbWidth
  /-- `FB.HEIGHT` (41_framebuffer R144). -/
  | fbHeight
  /-- `DD.INIT` (42_display_driver R173). -/
  | ddInit
  /-- `DD.BCAST addr, data` (42_display_driver R172). -/
  | ddBcast (addr data : Byte)
  /-- `DD.SEND` (42_display_driver R177). -/
  | ddSend
  /-- `DD.INTENSITY value` (42_display_driver R181). -/
  | ddIntensity (value : Word)
  /-- `DD.INTENSITYPD [v0, ..., vK-1]` (42_display_driver R182); `K` is the length of the list. -/
  | ddIntensityPd (values : List Word)
  /-- `DD.SHUTDOWN.<on>` (42_display_driver R183). -/
  | ddShutdown (on : Bool)
  /-- `DD.TEST.<on>` (42_display_driver R184). -/
  | ddTest (on : Bool)
  /-- `DD.CLEAR` (42_display_driver R185). -/
  | ddClear
  /-- Wire address 0: the no-op register (30_encoding R87). -/
  | wireNoop (data : Byte)
  /-- Wire address 1: row data for scan line 0. -/
  | wireRow0 (data : Byte)
  /-- Wire address 2: row data for scan line 1. -/
  | wireRow1 (data : Byte)
  /-- Wire address 3: row data for scan line 2. -/
  | wireRow2 (data : Byte)
  /-- Wire address 4: row data for scan line 3. -/
  | wireRow3 (data : Byte)
  /-- Wire address 5: row data for scan line 4. -/
  | wireRow4 (data : Byte)
  /-- Wire address 6: row data for scan line 5. -/
  | wireRow5 (data : Byte)
  /-- Wire address 7: row data for scan line 6. -/
  | wireRow6 (data : Byte)
  /-- Wire address 8: row data for scan line 7. -/
  | wireRow7 (data : Byte)
  /-- Wire address 9: decode-mode. -/
  | wireDecode (data : Byte)
  /-- Wire address 10: intensity. -/
  | wireIntensity (data : Byte)
  /-- Wire address 11: scan-limit. -/
  | wireScanLimit (data : Byte)
  /-- Wire address 12: shutdown. -/
  | wireShutdown (data : Byte)
  /-- Wire address 15: display-test. -/
  | wireTest (data : Byte)
deriving DecidableEq, Repr

/-- The twenty assigned operation codes of the command header (30_encoding R81), by name. -/
inductive Op where
  | brSet
  | brFlip
  | brExtract
  | brReverse
  | fbWrite
  | fbClear
  | fbClearAll
  | fbTurnDot
  | fbExtH
  | fbExtV
  | fbWidth
  | fbHeight
  | ddInit
  | ddBcast
  | ddSend
  | ddIntensity
  | ddIntensityPd
  | ddShutdown
  | ddTest
  | ddClear
deriving DecidableEq, Repr

/-- The nine command formats (30_encoding R78). -/
inductive Format where
  | c0
  | cxy
  | crect
  | cwrite
  | cbrsl
  | cbrs
  | cbrv
  | cw1
  | clist
deriving DecidableEq, Repr

/-- What the `Q` field of a header carries (30_encoding R71): nothing, the result width `M`, or the element width `S`. -/
inductive QUse where
  | unused
  | resultWidth
  | elemWidth
deriving DecidableEq, Repr

/-- The causes of a fault (60_exceptions R221). -/
inductive Cause where
  | illegalOpcode
  | reservedField
  | framing
  | brStart
  | intensityLength
  | intensityValue
deriving DecidableEq, Repr

/-- The thirteen registers of a device (10_state R35). -/
inductive DevReg where
  | row0
  | row1
  | row2
  | row3
  | row4
  | row5
  | row6
  | row7
  | decodeMode
  | intensity
  | scanLimit
  | shutdown
  | displayTest
deriving DecidableEq, Repr

/-- One command frame on the CMD port: word 0 and the operand words after it (30_encoding R70). The port delivers the
length with the frame; a frame has at least its header (log 13). -/
structure CmdFrame where
  header   : Word
  operands : List Word
deriving DecidableEq, Repr

/-- Encoded instructions: a command frame for the block, or a wire frame for a device. -/
inductive Code where
  | cmd (f : CmdFrame)
  | wire (f : Frame)
deriving DecidableEq, Repr

end Sys2Proof
end

