-- ==== Sys2Proof/WellFormed.lean ====
section
/-! DEFINITION. The well-formed instructions: those some legal encoding stands for (30_encoding R78, R82). -/

namespace Sys2Proof

/-- `S`, the number of bits of a source element (00_scope R11). -/
def ElemWidth.bits : ElemWidth → Nat
  | .w8 => 8
  | .w16 => 16
  | .w32 => 32
  | .w64 => 64

/-- A width field `N` or `M` is legal when it is `1..255` (30_encoding R71, R82). -/
def widthOk (n : Byte) : Bool := n != 0

/-- The checks of one instruction: `N` and `M` in `1..255`; `V` an `N`-bit value and each row an `S`-bit value (padding
zero, R78); a write carries `max(HT, 0)` rows and a list at most `2^32 - 1` values (R79). -/
def Instr.wf : Instr → Bool
  | .brSet _ n _ _ val => widthOk n && decide (val < 2 ^ n.toNat)
  | .brFlip n _ _ val => widthOk n && decide (val < 2 ^ n.toNat)
  | .brExtract n m _ val => widthOk n && widthOk m && decide (val < 2 ^ n.toNat)
  | .brReverse n val => widthOk n && decide (val < 2 ^ n.toNat)
  | .fbWrite s _ _ _ ht rows => decide (rows.length = ht.toInt.toNat) && rows.all (fun r => decide (r < 2 ^ s.bits))
  | .fbClear _ _ _ _ => true
  | .fbClearAll => true
  | .fbTurnDot _ _ _ => true
  | .fbExtH _ _ _ => true
  | .fbExtV _ _ _ => true
  | .fbWidth => true
  | .fbHeight => true
  | .ddInit => true
  | .ddBcast _ _ => true
  | .ddSend => true
  | .ddIntensity _ => true
  | .ddIntensityPd values => decide (values.length < 2 ^ 32)
  | .ddShutdown _ => true
  | .ddTest _ => true
  | .ddClear => true
  | .wireNoop _ => true
  | .wireRow0 _ => true
  | .wireRow1 _ => true
  | .wireRow2 _ => true
  | .wireRow3 _ => true
  | .wireRow4 _ => true
  | .wireRow5 _ => true
  | .wireRow6 _ => true
  | .wireRow7 _ => true
  | .wireDecode _ => true
  | .wireIntensity _ => true
  | .wireScanLimit _ => true
  | .wireShutdown _ => true
  | .wireTest _ => true

/-- The instruction is one some legal encoding stands for. -/
abbrev WellFormed (i : Instr) : Prop := i.wf = true

end Sys2Proof
end

