-- ==== Sys2Proof/Machine/Operands.lean ====
section
/-! DEFINITION. Operand forms and bit-vector primitives: signed and unsigned words, multi-word values, the masks and
reversals of 00_scope R14, wire frames. -/

namespace Sys2Proof.Machine

/-- `s32(w)`: a coordinate, width or height operand (00_scope R15, 30_encoding R77). -/
def s32 (w : Word) : Int := w.toInt

/-- `u32(w)`: a start, length, count or intensity operand (00_scope R15, 30_encoding R77). -/
def u32 (w : Word) : Nat := w.toNat

/-- `cw(B) = ceil(B / 32)`: the words a `B`-bit value occupies (30_encoding R77). -/
def cw (b : Nat) : Nat := (b + 31) / 32

/-- The value of consecutive words, least-significant word first (20_memory R56). -/
def wordsVal : List Word → Nat
  | [] => 0
  | w :: ws => w.toNat + 2 ^ 32 * wordsVal ws

/-- The low `k` words of a value, least-significant word first (20_memory R56). -/
def wordsOf : Nat → Nat → List Word
  | 0, _ => []
  | k + 1, v => BitVec.ofNat 32 v :: wordsOf k (v / 2 ^ 32)

/-- The `n`-bit value whose bit `i` is `f i` (00_scope R14). -/
def bitsVal : Nat → (Nat → Bool) → Nat
  | 0, _ => 0
  | n + 1, f => bitsVal n f ||| (if f n then 2 ^ n else 0)

/-- `mask_N(start, length)`: bit `i` is 1 exactly when `start <= i < start + length` and `i < N` (00_scope R14). -/
def maskN (n start len : Nat) : Nat := bitsVal n (fun i => decide (start ≤ i) && decide (i < start + len))

/-- `rev_N(v)`: bit `i` is bit `N - 1 - i` of `v` (00_scope R14). -/
def revN (n v : Nat) : Nat := bitsVal n (fun i => v.testBit (n - 1 - i))

/-- `V | m` or `V & ~m`: set or clear the bits of a mask (40_bitrange R102). -/
def setOrClear (v : Bool) (val mask : Nat) : Nat := if v then val ||| mask else val ^^^ (val &&& mask)

/-- The `M` bits of `V` from `START`, zero where `START + i >= N` (40_bitrange R108). -/
def extractN (n m start val : Nat) : Nat := bitsVal m (fun i => decide (start + i < n) && val.testBit (start + i))

/-- A value with bit `i` replaced. -/
def putBit (v i : Nat) (b : Bool) : Nat := setOrClear b v (2 ^ i)

/-- `frame(a, d)`: address in bits 15:8, data in bits 7:0 (00_scope R17, 30_encoding R87). PRESUMED by the spec itself for
the order of the two bytes (log 15). -/
def frame (a d : Byte) : Frame := a ++ d

/-- The address byte of a frame. -/
def frameAddr (f : Frame) : Byte := f.extractLsb' 8 8

/-- The data byte of a frame. -/
def frameData (f : Frame) : Byte := f.extractLsb' 0 8

/-- The integers `lo .. hi - 1` in order, the range of a pseudocode loop. -/
def intRange (lo hi : Int) : List Int := (List.range (hi - lo).toNat).map (fun (k : Nat) => lo + (k : Int))

/-- The address of a device register (10_state R35, 20_memory R61). -/
def regAddr : DevReg → Nat
  | .row0 => 1
  | .row1 => 2
  | .row2 => 3
  | .row3 => 4
  | .row4 => 5
  | .row5 => 6
  | .row6 => 7
  | .row7 => 8
  | .decodeMode => 9
  | .intensity => 10
  | .scanLimit => 11
  | .shutdown => 12
  | .displayTest => 15

/-- The register at an address, none for the no-op address 0 and for the addresses the source does not assign (20_memory
R61). -/
def regAt (a : Byte) : Option DevReg :=
  match a.toNat with
  | 1 => some .row0
  | 2 => some .row1
  | 3 => some .row2
  | 4 => some .row3
  | 5 => some .row4
  | 6 => some .row5
  | 7 => some .row6
  | 8 => some .row7
  | 9 => some .decodeMode
  | 10 => some .intensity
  | 11 => some .scanLimit
  | 12 => some .shutdown
  | 15 => some .displayTest
  | _ => none

/-- `ROT` as the two-bit code of a descriptor (10_state R30). -/
def rotCode : Rotation → BitVec 2
  | .deg0 => 0
  | .cw90 => 1
  | .deg180 => 2
  | .ccw90 => 3

end Sys2Proof.Machine
end

