-- ==== Sys2Proof/Machine/Flags.lean ====
section
/-! DEFINITION. The one status register. The block has no flags or condition codes (10_state R23); `FAULT` is its only
status, and no command sets a flag as a side effect. Here are its fields, its cause codes and the word a fault records. -/

namespace Sys2Proof.Machine

/-- The code of a cause in `FAULT.CAUSE` (60_exceptions R221). -/
def causeCode : Cause → Byte
  | .illegalOpcode => 0x01
  | .reservedField => 0x02
  | .framing => 0x03
  | .brStart => 0x10
  | .intensityLength => 0x11
  | .intensityValue => 0x12

/-- `FAULT.V`, bit 31 (10_state R27). -/
def faultV (f : Word) : Bool := f.getLsbD 31

/-- `FAULT.OP`, bits 23:16 (10_state R27). -/
def faultOp (f : Word) : Byte := f.extractLsb' 16 8

/-- `FAULT.CAUSE`, bits 7:0 (10_state R27). -/
def faultCause (f : Word) : Byte := f.extractLsb' 0 8

/-- The reserved fields of `FAULT`, bits 30:24 and 15:8, which read 0 (10_state R27). -/
def faultReserved (f : Word) : BitVec 15 := f.extractLsb' 24 7 ++ f.extractLsb' 8 8

/-- The word `(V = 1, OP, CAUSE)` that a fault records (60_exceptions R224). -/
def faultWord (op : Byte) (c : Cause) : Word := (1#1 ++ 0#7) ++ op ++ 0#8 ++ causeCode c

end Sys2Proof.Machine
end

