-- ==== Sys2Proof/Decode.lean ====
section
/-! DEFINITION. Decoding, total on every command frame and every wire frame, rejecting by name; then the encoder, written
from the same tables (30_encoding R71, R78, R79, R81, R87). -/

namespace Sys2Proof

open Sys2Proof.Machine

/-! ### The header (30_encoding R71) -/

/-- `OP`, bits 31:24. -/
def hdrOp (h : Word) : Byte := h.extractLsb' 24 8

/-- `F`, bit 23. -/
def hdrF (h : Word) : Bool := h.getLsbD 23

/-- `RSV`, bits 22:16. -/
def hdrRsv (h : Word) : BitVec 7 := h.extractLsb' 16 7

/-- `P`, bits 15:8. -/
def hdrP (h : Word) : Byte := h.extractLsb' 8 8

/-- `Q`, bits 7:0. -/
def hdrQ (h : Word) : Byte := h.extractLsb' 0 8

/-- A header word from its fields, `RSV = 0`. -/
def mkHeader (op : Byte) (f : Bool) (p q : Byte) : Word := op ++ BitVec.ofBool f ++ 0#7 ++ p ++ q

/-! ### The opcode map (30_encoding R81, R82) -/

/-- One row of the opcode map: `OP`, the format, the header fields it uses, and the row's match and mask as
`spec/opcode_table.json` lists them. -/
structure OpRow where
  code    : Byte
  fmt     : Format
  usesF   : Bool
  usesP   : Bool
  q       : QUse
  matched : Word
  mask    : Word
deriving DecidableEq, Repr

/-- The opcode map, row by row (30_encoding R81). -/
def Op.row : Op → OpRow
  | .brSet => ⟨0x01, .cbrsl, true, true, .unused, 0x01000000, 0xFF7F00FF⟩
  | .brFlip => ⟨0x02, .cbrsl, false, true, .unused, 0x02000000, 0xFFFF00FF⟩
  | .brExtract => ⟨0x03, .cbrs, false, true, .resultWidth, 0x03000000, 0xFFFF0000⟩
  | .brReverse => ⟨0x04, .cbrv, false, true, .unused, 0x04000000, 0xFFFF00FF⟩
  | .fbWrite => ⟨0x10, .cwrite, false, false, .elemWidth, 0x10000000, 0xFFFFFF00⟩
  | .fbClear => ⟨0x11, .crect, false, false, .unused, 0x11000000, 0xFFFFFFFF⟩
  | .fbClearAll => ⟨0x12, .c0, false, false, .unused, 0x12000000, 0xFFFFFFFF⟩
  | .fbTurnDot => ⟨0x13, .cxy, true, false, .unused, 0x13000000, 0xFF7FFFFF⟩
  | .fbExtH => ⟨0x14, .cxy, true, false, .unused, 0x14000000, 0xFF7FFFFF⟩
  | .fbExtV => ⟨0x15, .cxy, true, false, .unused, 0x15000000, 0xFF7FFFFF⟩
  | .fbWidth => ⟨0x16, .c0, false, false, .unused, 0x16000000, 0xFFFFFFFF⟩
  | .fbHeight => ⟨0x17, .c0, false, false, .unused, 0x17000000, 0xFFFFFFFF⟩
  | .ddInit => ⟨0x20, .c0, false, false, .unused, 0x20000000, 0xFFFFFFFF⟩
  | .ddBcast => ⟨0x21, .cw1, false, false, .unused, 0x21000000, 0xFFFFFFFF⟩
  | .ddSend => ⟨0x22, .c0, false, false, .unused, 0x22000000, 0xFFFFFFFF⟩
  | .ddIntensity => ⟨0x23, .cw1, false, false, .unused, 0x23000000, 0xFFFFFFFF⟩
  | .ddIntensityPd => ⟨0x24, .clist, false, false, .unused, 0x24000000, 0xFFFFFFFF⟩
  | .ddShutdown => ⟨0x25, .c0, true, false, .unused, 0x25000000, 0xFF7FFFFF⟩
  | .ddTest => ⟨0x26, .c0, true, false, .unused, 0x26000000, 0xFF7FFFFF⟩
  | .ddClear => ⟨0x27, .c0, false, false, .unused, 0x27000000, 0xFFFFFFFF⟩

/-- `OP` of a row. -/
def Op.code (o : Op) : Byte := o.row.code

/-- Every assigned operation, in the order of the table. -/
def Op.all : List Op :=
  [.brSet, .brFlip, .brExtract, .brReverse, .fbWrite, .fbClear, .fbClearAll, .fbTurnDot, .fbExtH, .fbExtV,
   .fbWidth, .fbHeight, .ddInit, .ddBcast, .ddSend, .ddIntensity, .ddIntensityPd, .ddShutdown, .ddTest, .ddClear]

/-- The row an `OP` value selects, none when it is not assigned (30_encoding R82, R83). -/
def opOf (b : Byte) : Option Op := Op.all.find? (fun o => o.code == b)

/-- The element width a `Q` field names: one of 8, 16, 32, 64 (30_encoding R71). -/
def elemWidthOf (q : Byte) : Option ElemWidth :=
  match q.toNat with
  | 8 => some .w8
  | 16 => some .w16
  | 32 => some .w32
  | 64 => some .w64
  | _ => none

/-- The `Q` field is legal for its use (30_encoding R82, R84). -/
def qOk : QUse → Byte → Bool
  | .unused, q => q == 0
  | .resultWidth, q => widthOk q
  | .elemWidth, q => (elemWidthOf q).isSome

/-- The header is legal for its row: `RSV` and every unused field 0, every used width legal (30_encoding R82, R84). -/
def headerOk (o : Op) (h : Word) : Bool :=
  hdrRsv h == 0 && (o.row.usesF || !hdrF h) && (if o.row.usesP then widthOk (hdrP h) else hdrP h == 0) && qOk o.row.q (hdrQ h)

/-! ### Frame length (30_encoding R79) -/

/-- The number of words of a frame. -/
def CmdFrame.length (f : CmdFrame) : Nat := 1 + f.operands.length

/-- `S` of a header in bits. -/
def hdrS (h : Word) : Nat := (hdrQ h).toNat

/-- The length `L` a frame must have; none when the frame is too short to hold the operand word `L` depends on
(30_encoding R79). -/
def frameLen (o : Op) (f : CmdFrame) : Option Nat :=
  match o.row.fmt with
  | .c0 => some 1
  | .cxy => some 3
  | .crect => some 5
  | .cwrite =>
    match f.operands with
    | _ :: _ :: _ :: ht :: _ => some (5 + (max (s32 ht) 0).toNat * cw (hdrS f.header))
    | _ => none
  | .cbrsl => some (3 + cw (hdrP f.header).toNat)
  | .cbrs => some (2 + cw (hdrP f.header).toNat)
  | .cbrv => some (1 + cw (hdrP f.header).toNat)
  | .cw1 => some 2
  | .clist =>
    match f.operands with
    | k :: _ => some (2 + u32 k)
    | _ => none

/-! ### Operand words (30_encoding R78, R80)

Each reader gives the instruction, or names why not. A count of words the format does not have is `framing`; the decoder
has checked the length before it reads them. -/

/-- Format `C0`. -/
def readC0 (ws : List Word) (i : Instr) : Except Cause Instr :=
  match ws with
  | [] => .ok i
  | _ => .error .framing

/-- Format `CXY`. -/
def readCXY (ws : List Word) (mk : Word → Word → Instr) : Except Cause Instr :=
  match ws with
  | [x, y] => .ok (mk x y)
  | _ => .error .framing

/-- Format `CRECT`. -/
def readCRECT (ws : List Word) (mk : Word → Word → Word → Word → Instr) : Except Cause Instr :=
  match ws with
  | [x, y, wd, ht] => .ok (mk x y wd ht)
  | _ => .error .framing

/-- A bit-vector operand of `n` bits: its padding must be 0 (30_encoding R78, R84). -/
def readV (n : Byte) (ws : List Word) (mk : Nat → Instr) : Except Cause Instr :=
  if wordsVal ws < 2 ^ n.toNat then .ok (mk (wordsVal ws)) else .error .reservedField

/-- Format `CBRSL`. -/
def readCBRSL (n : Byte) (ws : List Word) (mk : Word → Word → Nat → Instr) : Except Cause Instr :=
  match ws with
  | start :: len :: vs => readV n vs (mk start len)
  | _ => .error .framing

/-- Format `CBRS`. -/
def readCBRS (n : Byte) (ws : List Word) (mk : Word → Nat → Instr) : Except Cause Instr :=
  match ws with
  | start :: vs => readV n vs (mk start)
  | _ => .error .framing

/-- `k` rows of `c` words each, row 0 first (30_encoding R78). -/
def readRows : Nat → Nat → List Word → List Nat
  | 0, _, _ => []
  | k + 1, c, ws => wordsVal (ws.take c) :: readRows k c (ws.drop c)

/-- Format `CWRITE`. -/
def readCWRITE (q : Byte) (ws : List Word) : Except Cause Instr :=
  match elemWidthOf q, ws with
  | none, _ => .error .reservedField
  | some s, x :: y :: wd :: ht :: ds =>
    let rows := readRows (max (s32 ht) 0).toNat (cw s.bits) ds
    if rows.all (fun r => decide (r < 2 ^ s.bits)) then .ok (.fbWrite s x y wd ht rows) else .error .reservedField
  | some _, _ => .error .framing

/-- Format `CW1` of `DD.BCAST`: `W1[31:16]` is reserved 0 (30_encoding R80). -/
def readBcast (ws : List Word) : Except Cause Instr :=
  match ws with
  | [w] => if w.extractLsb' 16 16 = 0 then .ok (.ddBcast (w.extractLsb' 8 8) (w.extractLsb' 0 8)) else .error .reservedField
  | _ => .error .framing

/-- Format `CW1` of `DD.INTENSITY`. -/
def readIntensity (ws : List Word) : Except Cause Instr :=
  match ws with
  | [w] => .ok (.ddIntensity w)
  | _ => .error .framing

/-- Format `CLIST`: the count word, then the values. -/
def readCLIST (ws : List Word) : Except Cause Instr :=
  match ws with
  | _ :: vs => .ok (.ddIntensityPd vs)
  | _ => .error .framing

/-- The operands of a frame whose header and length are legal. -/
def readOperands (o : Op) (h : Word) (ws : List Word) : Except Cause Instr :=
  match o with
  | .brSet => readCBRSL (hdrP h) ws (fun st ln v => .brSet (hdrF h) (hdrP h) st ln v)
  | .brFlip => readCBRSL (hdrP h) ws (fun st ln v => .brFlip (hdrP h) st ln v)
  | .brExtract => readCBRS (hdrP h) ws (fun st v => .brExtract (hdrP h) (hdrQ h) st v)
  | .brReverse => readV (hdrP h) ws (fun v => .brReverse (hdrP h) v)
  | .fbWrite => readCWRITE (hdrQ h) ws
  | .fbClear => readCRECT ws .fbClear
  | .fbClearAll => readC0 ws .fbClearAll
  | .fbTurnDot => readCXY ws (.fbTurnDot (hdrF h))
  | .fbExtH => readCXY ws (.fbExtH (hdrF h))
  | .fbExtV => readCXY ws (.fbExtV (hdrF h))
  | .fbWidth => readC0 ws .fbWidth
  | .fbHeight => readC0 ws .fbHeight
  | .ddInit => readC0 ws .ddInit
  | .ddBcast => readBcast ws
  | .ddSend => readC0 ws .ddSend
  | .ddIntensity => readIntensity ws
  | .ddIntensityPd => readCLIST ws
  | .ddShutdown => readC0 ws (.ddShutdown (hdrF h))
  | .ddTest => readC0 ws (.ddTest (hdrF h))
  | .ddClear => readC0 ws .ddClear

/-- Decode one command frame, or give the one cause it reports, in the order of 60_exceptions R223: illegal opcode, reserved
field of the header, framing, reserved field of an operand word. -/
def decodeCmd (f : CmdFrame) : Except Cause Instr :=
  match opOf (hdrOp f.header) with
  | none => .error .illegalOpcode
  | some o =>
    if headerOk o f.header then
      if frameLen o f = some f.length then readOperands o f.header f.operands else .error .framing
    else .error .reservedField

/-- Decode one wire frame; none for the addresses the source does not assign (30_encoding R87, 20_memory R61). -/
def decodeWire (f : Frame) : Option Instr :=
  match (frameAddr f).toNat with
  | 0 => some (.wireNoop (frameData f))
  | 1 => some (.wireRow0 (frameData f))
  | 2 => some (.wireRow1 (frameData f))
  | 3 => some (.wireRow2 (frameData f))
  | 4 => some (.wireRow3 (frameData f))
  | 5 => some (.wireRow4 (frameData f))
  | 6 => some (.wireRow5 (frameData f))
  | 7 => some (.wireRow6 (frameData f))
  | 8 => some (.wireRow7 (frameData f))
  | 9 => some (.wireDecode (frameData f))
  | 10 => some (.wireIntensity (frameData f))
  | 11 => some (.wireScanLimit (frameData f))
  | 12 => some (.wireShutdown (frameData f))
  | 15 => some (.wireTest (frameData f))
  | _ => none

/-- Decode either kind of code; none where it is refused (for a command, `decodeCmd` names the cause). -/
def decode : Code → Option Instr
  | .cmd f => (decodeCmd f).toOption
  | .wire f => decodeWire f

/-! ### The encoder -/

/-- The `Q` field of an element width. -/
def ElemWidth.code : ElemWidth → Byte
  | .w8 => 8
  | .w16 => 16
  | .w32 => 32
  | .w64 => 64

/-- A command frame from the fields of its header and its operand words. -/
def mkCmd (o : Op) (f : Bool) (p q : Byte) (ws : List Word) : Code := .cmd ⟨mkHeader o.code f p q, ws⟩

/-- The words of a well-formed instruction (30_encoding R78, R81, R87). -/
def encode : Instr → Code
  | .brSet v n start len val => mkCmd .brSet v n 0 (start :: len :: wordsOf (cw n.toNat) val)
  | .brFlip n start len val => mkCmd .brFlip false n 0 (start :: len :: wordsOf (cw n.toNat) val)
  | .brExtract n m start val => mkCmd .brExtract false n m (start :: wordsOf (cw n.toNat) val)
  | .brReverse n val => mkCmd .brReverse false n 0 (wordsOf (cw n.toNat) val)
  | .fbWrite s x y wd ht rows => mkCmd .fbWrite false 0 s.code (x :: y :: wd :: ht :: rows.flatMap (wordsOf (cw s.bits)))
  | .fbClear x y wd ht => mkCmd .fbClear false 0 0 [x, y, wd, ht]
  | .fbClearAll => mkCmd .fbClearAll false 0 0 []
  | .fbTurnDot on x y => mkCmd .fbTurnDot on 0 0 [x, y]
  | .fbExtH rev x y => mkCmd .fbExtH rev 0 0 [x, y]
  | .fbExtV rev x y => mkCmd .fbExtV rev 0 0 [x, y]
  | .fbWidth => mkCmd .fbWidth false 0 0 []
  | .fbHeight => mkCmd .fbHeight false 0 0 []
  | .ddInit => mkCmd .ddInit false 0 0 []
  | .ddBcast addr data => mkCmd .ddBcast false 0 0 [0#16 ++ addr ++ data]
  | .ddSend => mkCmd .ddSend false 0 0 []
  | .ddIntensity value => mkCmd .ddIntensity false 0 0 [value]
  | .ddIntensityPd values => mkCmd .ddIntensityPd false 0 0 (BitVec.ofNat 32 values.length :: values)
  | .ddShutdown on => mkCmd .ddShutdown on 0 0 []
  | .ddTest on => mkCmd .ddTest on 0 0 []
  | .ddClear => mkCmd .ddClear false 0 0 []
  | .wireNoop d => .wire (frame 0 d)
  | .wireRow0 d => .wire (frame 1 d)
  | .wireRow1 d => .wire (frame 2 d)
  | .wireRow2 d => .wire (frame 3 d)
  | .wireRow3 d => .wire (frame 4 d)
  | .wireRow4 d => .wire (frame 5 d)
  | .wireRow5 d => .wire (frame 6 d)
  | .wireRow6 d => .wire (frame 7 d)
  | .wireRow7 d => .wire (frame 8 d)
  | .wireDecode d => .wire (frame 9 d)
  | .wireIntensity d => .wire (frame 10 d)
  | .wireScanLimit d => .wire (frame 11 d)
  | .wireShutdown d => .wire (frame 12 d)
  | .wireTest d => .wire (frame 15 d)

/-! ### Words as the opcode table numbers them -/

/-- Word `k` of a number of words, bits counting on from the first word. -/
def wordAt (w k : Nat) : Word := BitVec.ofNat 32 (w >>> (32 * k))

/-- The command frame whose bits are `w` (bit 0 the least significant bit of the header), with as many operand words as its
header and its own first operand words ask for, zero above the bits given (log 19). -/
def tableFrame (w : Nat) : CmdFrame :=
  let h := wordAt w 0
  let probe : CmdFrame := ⟨h, [wordAt w 1, wordAt w 2, wordAt w 3, wordAt w 4]⟩
  let len := match opOf (hdrOp h) with
    | none => 1
    | some o => (frameLen o probe).getD 1
  ⟨h, (List.range (len - 1)).map (fun k => wordAt w (k + 1))⟩

/-- The code a row's bits stand for: a row of 16 bits is a wire frame, a longer one a command frame. -/
def tableCode (nbits w : Nat) : Code :=
  if nbits ≤ 16 then .wire (BitVec.ofNat 16 w) else .cmd (tableFrame w)

/-- The instruction the decoder reads from an instruction whose bits are `w`, numbered as `spec/opcode_table.json` numbers
them. -/
def decodeTableWord (nbits w : Nat) : Option Instr := decode (tableCode nbits w)

end Sys2Proof
end

