-- ==== Sys2Proof/Machine/State.lean ====
section
/-! DEFINITION. The state of the display block, its devices and its ports, as plain data (10_state), and reset (10_state R37,
70_reset_and_hazards R250 to R252). -/

namespace Sys2Proof.Machine

/-- The registers of one device (10_state R35): rows 0 to 7 at addresses 1 to 8, then decode-mode 9, intensity 10,
scan-limit 11, shutdown 12, display-test 15. -/
structure DevRegs where
  row0        : Byte
  row1        : Byte
  row2        : Byte
  row3        : Byte
  row4        : Byte
  row5        : Byte
  row6        : Byte
  row7        : Byte
  decodeMode  : Byte
  intensity   : Byte
  scanLimit   : Byte
  shutdown    : Byte
  displayTest : Byte
deriving DecidableEq, Repr

/-- One response on the RESP port (30_encoding R86): `RS` 0 with the result words, `RS` 1, or `RS` 2. -/
inductive Response where
  | ok (words : List Word)
  | fault
  | halted
deriving DecidableEq, Repr

/-- What the host presents to the block (60_exceptions R235): a command frame on CMD, or RST between commands. -/
inductive HostInput where
  | frame (f : CmdFrame)
  | rst
deriving DecidableEq, Repr

/-- Why the model stops. -/
inductive Fault where
  /-- Raised by `fetch`: a wire frame is handed to a device index the chain does not have. No run from reset reaches it.
  Safe: the model stops where no device would act (log 11). -/
  | noSuchDevice
deriving DecidableEq, Repr

/-- Why the model gives no meaning. -/
inductive Refusal where
  /-- Raised by an arm of `exec` whose instruction has no meaning yet. Safe. No arm raises it. -/
  | notModelled (mnemonic : String)
deriving DecidableEq, Repr

/-- The state (10_state R20), with the devices' registers (R35), the responses given (30_encoding R86) and, last, four fields
of the model's own: the host's coming inputs (log 7), the wire frames still to be latched one by one and the device the
current one is for (log 10), and the number of free values drawn (log 6). -/
structure State where
  /-- `WIDTH`, `HEIGHT`, `n`, `DEV[]` (10_state R29). -/
  cfg      : Instance
  /-- `FB[0 .. HEIGHT-1]`, each row a `WIDTH`-bit value (10_state R24). -/
  fb       : List Nat
  /-- `FAULT` (10_state R27). -/
  fault    : Word
  /-- `CS_N` (10_state R32, R33). -/
  csN      : Bool
  /-- `CLK` (10_state R32, R33). -/
  clk      : Bool
  /-- `DIN` (10_state R32, R33). -/
  din      : Bool
  /-- `BUS_HIST`, oldest transaction first (10_state R34). -/
  busHist  : List Transaction
  /-- `DEVREG[0 .. n-1]` (10_state R35). -/
  devreg   : List DevRegs
  /-- The responses of this run, oldest first (60_exceptions R236). -/
  resp     : List Response
  /-- The host's coming inputs, next first. -/
  cmdIn    : List HostInput
  /-- Wire frames still to be latched, each with the device that holds it. -/
  wireIn   : List (Nat × Frame)
  /-- The device whose frame the current wire instruction is. -/
  latchDev : Nat
  /-- How many free values have been drawn. -/
  draws    : Nat
deriving DecidableEq, Repr

/-- The row storage has its one form: `HEIGHT` rows, each a `WIDTH`-bit value (10_state R24), so that equal frame buffers are
equal data (log 14). -/
def Memory.wf (c : Instance) (fb : List Nat) : Bool :=
  decide (fb.length = c.height) && fb.all (fun row => decide (row < 2 ^ c.width))

/-- `HALTED = FAULT.V` (10_state R28). -/
def State.halted (s : State) : Bool := s.fault.getLsbD 31

/-- The frame buffer content of reset number `draw`: `FB_INIT`, a free value (10_state R37, log 2). -/
def State.fbInit (c : Instance) (draw : Nat) : List Nat :=
  (List.range c.height).map (fun y => Config.fbInit draw y % 2 ^ c.width)

/-- The registers of device `i` at power-up: `DEV_INIT`, a free value (70_reset_and_hazards R252, log 3). -/
def State.devInit (i : Nat) : DevRegs where
  row0 := Config.devInit i 1
  row1 := Config.devInit i 2
  row2 := Config.devInit i 3
  row3 := Config.devInit i 4
  row4 := Config.devInit i 5
  row5 := Config.devInit i 6
  row6 := Config.devInit i 7
  row7 := Config.devInit i 8
  decodeMode := Config.devInit i 9
  intensity := Config.devInit i 10
  scanLimit := Config.devInit i 11
  shutdown := Config.devInit i 12
  displayTest := Config.devInit i 15

/-- The state of an instance with configuration `c` right after power-up and reset (10_state R37, 70_reset_and_hazards R250,
R252). -/
def State.powerUp (c : Instance) : State where
  cfg := c
  fb := State.fbInit c 0
  fault := 0
  csN := true
  clk := false
  din := Config.freeDin 0
  busHist := []
  devreg := (List.range c.n).map State.devInit
  resp := []
  cmdIn := []
  wireIn := []
  latchDev := 0
  draws := 1

/-- The machine right after reset, for the instance the log names (log 1). -/
def State.reset : State := State.powerUp Instance.default

end Sys2Proof.Machine
end

