-- ==== Sys2Proof/Machine/Ops.lean ====
section
/-! DEFINITION. The named operations of the block: pixels, responses, taking a fault, reset, device registers, bus
transactions. -/

namespace Sys2Proof.Machine

/-! ### Pixels (00_scope R16, 10_state R24) -/

/-- `PixRead(X, Y) = FB[Y][WIDTH - X - 1]`, for a pixel of the buffer. -/
def pixRead (width : Nat) (fb : List Nat) (x y : Nat) : Bool := (fb.getD y 0).testBit (width - x - 1)

/-- `PixWrite(X, Y, b)`: `FB[Y][WIDTH - X - 1] <- b`, for a pixel of the buffer. -/
def pixWrite (width : Nat) (fb : List Nat) (x y : Nat) (b : Bool) : List Nat :=
  fb.set y (putBit (fb.getD y 0) (width - x - 1) b)

/-- `(X, Y)` is a pixel of the buffer: `0 <= X < WIDTH` and `0 <= Y < HEIGHT` (20_memory R61). -/
def inFb (c : Instance) (x y : Int) : Bool :=
  decide (0 ≤ x) && decide (x < c.width) && decide (0 ≤ y) && decide (y < c.height)

/-- `PixOr(X, Y)`: the clipped read, 0 outside the buffer (00_scope R16). -/
def pixOr (c : Instance) (fb : List Nat) (x y : Int) : Bool :=
  inFb c x y && pixRead c.width fb x.toNat y.toNat

/-- `PixWrite` where the pixel is in the buffer, nothing where it is not (20_memory R51). -/
def pixWriteClipped (c : Instance) (fb : List Nat) (x y : Int) (b : Bool) : List Nat :=
  if inFb c x y then pixWrite c.width fb x.toNat y.toNat b else fb

/-- The test both rectangle operations begin with: the rectangle does not overlap the buffer (41_framebuffer R131, R134). -/
def missesFb (c : Instance) (x0 y0 w h : Int) : Bool :=
  decide ((c.width : Int) ≤ x0) || decide ((c.height : Int) ≤ y0) || decide (x0 + w ≤ 0) || decide (y0 + h ≤ 0)

/-- One row of a write: source bit `b` goes to column `X0 + w - 1 - b`, where that is a column (41_framebuffer R131). -/
def writeRow (c : Instance) (x0 w y : Int) (bits : Nat) (fb : List Nat) : List Nat :=
  (List.range w.toNat).foldl (fun fb (b : Nat) => pixWriteClipped c fb (x0 + w - 1 - (b : Int)) y (bits.testBit b)) fb

/-- The frame buffer after a write of `rows`, `s` bits each, into the rectangle (41_framebuffer R131): the width is clamped to
the element width, rows outside the buffer are skipped, pixels are overwritten. -/
def fbWritten (c : Instance) (s : Nat) (x0 y0 wd ht : Int) (rows : List Nat) (fb : List Nat) : List Nat :=
  let w := min wd (s : Int)
  if missesFb c x0 y0 w ht then fb
  else (List.range ht.toNat).foldl (fun fb (r : Nat) => writeRow c x0 w (y0 + (r : Int)) (rows.getD r 0) fb) fb

/-- The frame buffer after a clear of the rectangle (41_framebuffer R134). -/
def fbCleared (c : Instance) (x0 y0 wd ht : Int) (fb : List Nat) : List Nat :=
  if missesFb c x0 y0 wd ht then fb
  else
    (intRange (max y0 0) (min (y0 + ht) c.height)).foldl (fun fb y =>
      (intRange (max x0 0) (min (x0 + wd) c.width)).foldl (fun fb x => pixWrite c.width fb x.toNat y.toNat false) fb) fb

/-- The byte of a horizontal extraction: bit 7 is column `x`, bit 0 column `x + 7`; reversed when asked (41_framebuffer
R140). -/
def extH (c : Instance) (fb : List Nat) (x y : Int) (rev : Bool) : Byte :=
  let base := bitsVal 8 (fun i => pixOr c fb (x + 7 - (i : Int)) y)
  BitVec.ofNat 8 (if rev then revN 8 base else base)

/-- The byte of a vertical extraction: bit 7 is row `y`, bit 0 row `y + 7`; reversed when asked (41_framebuffer R141). -/
def extV (c : Instance) (fb : List Nat) (x y : Int) (rev : Bool) : Byte :=
  let base := bitsVal 8 (fun i => pixOr c fb x (y + 7 - (i : Int)))
  BitVec.ofNat 8 (if rev then revN 8 base else base)

/-! ### Responses and faults (30_encoding R86, 60_exceptions R224, R225) -/

/-- `RS`: 0 for OK, 1 for FAULT, 2 for HALTED (30_encoding R86). -/
def Response.rs : Response → Nat
  | .ok _ => 0
  | .fault => 1
  | .halted => 2

/-- The result words of a response; only `OK` has any. -/
def Response.words : Response → List Word
  | .ok ws => ws
  | .fault => []
  | .halted => []

/-- `STATUS`: the `FAULT` register, at any time (10_state R32). -/
def State.status (s : State) : Word := s.fault

/-- Give one response. -/
def State.respond (r : Response) (s : State) : State := { s with resp := s.resp ++ [r] }

/-- A command ends well: its result words on RESP. -/
def State.ok (ws : List Word) (s : State) : State := s.respond (.ok ws)

/-- Taking a fault, the one operation every cause goes through (60_exceptions R224): `FAULT` records `V`, `OP` and `CAUSE`,
only while `V = 0` (10_state R27), and the response is FAULT. Nothing else changes: no vector, no saved context, no mode. -/
def State.takeFault (op : Byte) (c : Cause) (s : State) : State :=
  { s with fault := if faultV s.fault then s.fault else faultWord op c }.respond .fault

/-- A block reset, the only way out of the halted state (60_exceptions R226): the values of 10_state R37, `FB` and `DIN` drawn
anew, the configuration and the devices' registers kept (70_reset_and_hazards R250, R251). The responses start again with the
run (log 9). -/
def State.blockReset (s : State) : State :=
  { s with
    fb := State.fbInit s.cfg s.draws
    fault := 0
    csN := true
    clk := false
    din := Config.freeDin s.draws
    busHist := []
    resp := []
    draws := s.draws + 1 }

/-! ### Device registers (10_state R35, 42_display_driver R192, R193) -/

/-- Read one register of a device. -/
def DevRegs.get (d : DevRegs) : DevReg → Byte
  | .row0 => d.row0
  | .row1 => d.row1
  | .row2 => d.row2
  | .row3 => d.row3
  | .row4 => d.row4
  | .row5 => d.row5
  | .row6 => d.row6
  | .row7 => d.row7
  | .decodeMode => d.decodeMode
  | .intensity => d.intensity
  | .scanLimit => d.scanLimit
  | .shutdown => d.shutdown
  | .displayTest => d.displayTest

/-- Write one register of a device. -/
def DevRegs.put (d : DevRegs) (r : DevReg) (b : Byte) : DevRegs :=
  match r with
  | .row0 => { d with row0 := b }
  | .row1 => { d with row1 := b }
  | .row2 => { d with row2 := b }
  | .row3 => { d with row3 := b }
  | .row4 => { d with row4 := b }
  | .row5 => { d with row5 := b }
  | .row6 => { d with row6 := b }
  | .row7 => { d with row7 := b }
  | .decodeMode => { d with decodeMode := b }
  | .intensity => { d with intensity := b }
  | .scanLimit => { d with scanLimit := b }
  | .shutdown => { d with shutdown := b }
  | .displayTest => { d with displayTest := b }

/-- Registers at any value: free values of draw `draw` for device `i` (42_display_driver R193, log 5). -/
def freeRegs (draw i : Nat) : DevRegs where
  row0 := Config.freeByte draw i 1
  row1 := Config.freeByte draw i 2
  row2 := Config.freeByte draw i 3
  row3 := Config.freeByte draw i 4
  row4 := Config.freeByte draw i 5
  row5 := Config.freeByte draw i 6
  row6 := Config.freeByte draw i 7
  row7 := Config.freeByte draw i 8
  decodeMode := Config.freeByte draw i 9
  intensity := Config.freeByte draw i 10
  scanLimit := Config.freeByte draw i 11
  shutdown := Config.freeByte draw i 12
  displayTest := Config.freeByte draw i 15

/-- `DEVREG[i][a]`, where device `i` exists. -/
def State.devRead (s : State) (i : Nat) (r : DevReg) : Option Byte := (s.devreg[i]?).map (fun d => d.get r)

/-- `DEVREG[i][a] <- d`. -/
def State.devWrite (i : Nat) (r : DevReg) (b : Byte) (s : State) : State :=
  { s with devreg := s.devreg.modify i (fun d => d.put r b) }

/-- `DEVREG[i] <- any value` (42_display_driver R193). -/
def State.devForget (i : Nat) (s : State) : State :=
  { s with devreg := s.devreg.set i (freeRegs s.draws i), draws := s.draws + 1 }

/-- Device `i` latches frame `f` (42_display_driver R192): the no-op register changes nothing, an assigned address stores the
data, any other leaves that device's registers at any value. -/
def State.latch (i : Nat) (f : Frame) (s : State) : State :=
  if frameAddr f = 0 then s
  else
    match regAt (frameAddr f) with
    | some r => s.devWrite i r (frameData f)
    | none => s.devForget i

/-- Devices `i`, `i + 1`, ... latch one frame each. -/
def State.latchFrom : Nat → List Frame → State → State
  | _, [], s => s
  | i, f :: fs, s => State.latchFrom (i + 1) fs (s.latch i f)

/-- The end of a transaction (42_display_driver R192): with exactly `n` frames, device `i` takes frame `i`; with any other
count every device's registers take any value (log 5). -/
def State.latchAll (fs : Transaction) (s : State) : State :=
  if fs.length = s.cfg.n then s.latchFrom 0 fs
  else { s with devreg := (List.range s.devreg.length).map (freeRegs s.draws), draws := s.draws + 1 }

/-! ### Bus transactions (00_scope R17, 42_display_driver R190) -/

/-- The bus is idle: `CS_N = 1`, `CLK = 0`, `DIN` at an unspecified level (10_state R33, log 4). -/
def State.busIdle (s : State) : State :=
  { s with csN := true, clk := false, din := Config.freeDin s.draws, draws := s.draws + 1 }

/-- `Emit([f0, ..., fk-1])`: one whole transaction (00_scope R17, R18). It is appended to `BUS_HIST`, the devices latch, the
bus is idle again. `SerialBus.lean` has its pin-level form. -/
def State.emit (s : State) (fs : Transaction) : State :=
  ({ s with busHist := s.busHist ++ [fs] }.latchAll fs).busIdle

/-- Several transactions, in order. -/
def State.emitAll (ts : List Transaction) (s : State) : State := ts.foldl State.emit s

/-- The transaction of `Bcast(a, d)`: `n` equal frames (42_display_driver R171). -/
def bcast (c : Instance) (a d : Byte) : Transaction := List.replicate c.n (frame a d)

/-- A display-driver command that emits `ts` and answers OK with no result word. -/
def State.drive (ts : List Transaction) (s : State) : State := (s.emitAll ts).ok []

end Sys2Proof.Machine
end

