-- ==== Sys2Proof/Machine/BitRange.lean ====
section
/-! DEFINITION. The bit-range unit: `BR.SET`, `BR.FLIP`, `BR.EXTRACT`, `BR.REVERSE` (40_bitrange). It has no state
(10_state R26): each command answers its result and changes nothing else. -/

namespace Sys2Proof.Machine

/-- `BR.SET` (40_bitrange R102): `BR_START` when `START >= N`, else `V | m` or `V & ~m` for the mask of the range. -/
def execBrSet (v : Bool) (n : Byte) (start len : Word) (val : Nat) (s : State) : Host.Outcome State Fault Refusal :=
  let N := n.toNat
  if u32 start ≥ N then .next (s.takeFault Op.brSet.code .brStart)
  else .next (s.ok (wordsOf (cw N) (setOrClear v val (maskN N (u32 start) (u32 len)))))

/-- `BR.FLIP` (40_bitrange R105): `BR_START` when `START >= N`, else `V ^ m`. -/
def execBrFlip (n : Byte) (start len : Word) (val : Nat) (s : State) : Host.Outcome State Fault Refusal :=
  let N := n.toNat
  if u32 start ≥ N then .next (s.takeFault Op.brFlip.code .brStart)
  else .next (s.ok (wordsOf (cw N) (val ^^^ maskN N (u32 start) (u32 len))))

/-- `BR.EXTRACT` (40_bitrange R108): `BR_START` when `START >= N`, else the `M` bits from `START`, zero-filled. -/
def execBrExtract (n m : Byte) (start : Word) (val : Nat) (s : State) : Host.Outcome State Fault Refusal :=
  let N := n.toNat
  let M := m.toNat
  if u32 start ≥ N then .next (s.takeFault Op.brExtract.code .brStart)
  else .next (s.ok (wordsOf (cw M) (extractN N M (u32 start) val)))

/-- `BR.REVERSE` (40_bitrange R111): bit `i` of the result is bit `N - 1 - i` of `V`. -/
def execBrReverse (n : Byte) (val : Nat) (s : State) : Host.Outcome State Fault Refusal :=
  let N := n.toNat
  .next (s.ok (wordsOf (cw N) (revN N val)))

end Sys2Proof.Machine
end

