-- ==== Sys2Proof/Machine/DisplayDriver.lean ====
section
/-! DEFINITION. The display driver commands (42_display_driver). Each acts only through `emit`; none writes `FB`. -/

namespace Sys2Proof.Machine

/-- `RowByte(i, r)`: the byte of row-within-cell `r` for a descriptor, by the transform table (42_display_driver R174). -/
def rowByte (c : Instance) (fb : List Nat) (d : Descriptor) (r : Nat) : Byte :=
  let k : Int := r
  match d.rot with
  | .deg0 => extH c fb (s32 d.tx) (s32 d.ty + k) d.mirror
  | .deg180 => extH c fb (s32 d.tx) (s32 d.ty + 7 - k) (!d.mirror)
  | .cw90 => extV c fb (s32 d.tx + k) (s32 d.ty) (!d.mirror)
  | .ccw90 => extV c fb (s32 d.tx + 7 - k) (s32 d.ty) d.mirror

/-- The transaction of row-within-cell `r`: address `8 - r` for every device, its own byte for each (42_display_driver R175,
R177). -/
def sendRow (c : Instance) (fb : List Nat) (r : Nat) : Transaction :=
  c.dev.map (fun d => frame (BitVec.ofNat 8 (8 - r)) (rowByte c fb d r))

/-- The eight transactions of `DD.SEND`, `r = 0 .. 7` (42_display_driver R176, R177). -/
def sendAll (c : Instance) (fb : List Nat) : List Transaction := (List.range 8).map (sendRow c fb)

/-- The five broadcasts of `DD.INIT`: shutdown, test off, intensity 15, scan-limit 7, decode-mode 0 (42_display_driver R173,
R186). The shutdown and test data bytes are PRESUMED by the spec itself (log 15). -/
def initAll (c : Instance) : List Transaction :=
  [bcast c 12 0x00, bcast c 15 0x00, bcast c 10 0x0F, bcast c 11 0x07, bcast c 9 0x00]

/-- The eight broadcasts of `DD.CLEAR`, addresses 1 to 8 ascending (42_display_driver R185). -/
def clearAllDigits (c : Instance) : List Transaction := (List.range 8).map (fun k => bcast c (BitVec.ofNat 8 (k + 1)) 0x00)

/-- `DD.INIT` (42_display_driver R173). -/
def execDdInit (s : State) : Host.Outcome State Fault Refusal := .next (s.drive (initAll s.cfg))

/-- `DD.BCAST` (42_display_driver R172): any address and data are sent. -/
def execDdBcast (addr data : Byte) (s : State) : Host.Outcome State Fault Refusal := .next (s.drive [bcast s.cfg addr data])

/-- `DD.SEND` (42_display_driver R177): every byte is computed from `FB` as it stands when the command starts. -/
def execDdSend (s : State) : Host.Outcome State Fault Refusal := .next (s.drive (sendAll s.cfg s.fb))

/-- `DD.INTENSITY` (42_display_driver R181): `INTENSITY_VALUE` above 15, else a broadcast to register 10. -/
def execDdIntensity (value : Word) (s : State) : Host.Outcome State Fault Refusal :=
  if u32 value > 15 then .next (s.takeFault Op.ddIntensity.code .intensityValue)
  else .next (s.drive [bcast s.cfg 10 (value.setWidth 8)])

/-- `DD.INTENSITYPD` (42_display_driver R182): `INTENSITY_LENGTH` when `K` is not `n`, then `INTENSITY_VALUE` when some value
is above 15, else one transaction with value `j` for device `j`. -/
def execDdIntensityPd (values : List Word) (s : State) : Host.Outcome State Fault Refusal :=
  if values.length ≠ s.cfg.n then .next (s.takeFault Op.ddIntensityPd.code .intensityLength)
  else if values.any (fun v => decide (u32 v > 15)) then .next (s.takeFault Op.ddIntensityPd.code .intensityValue)
  else .next (s.drive [values.map (fun v => frame 10 (v.setWidth 8))])

/-- `DD.SHUTDOWN` (42_display_driver R183, R186): `0x00` blanks, `0x01` is normal operation. -/
def execDdShutdown (on : Bool) (s : State) : Host.Outcome State Fault Refusal :=
  .next (s.drive [bcast s.cfg 12 (if on then 0x00 else 0x01)])

/-- `DD.TEST` (42_display_driver R184, R186): `0x01` is test mode, `0x00` normal operation. -/
def execDdTest (on : Bool) (s : State) : Host.Outcome State Fault Refusal :=
  .next (s.drive [bcast s.cfg 15 (if on then 0x01 else 0x00)])

/-- `DD.CLEAR` (42_display_driver R185): the digit registers to zero, `FB` untouched. -/
def execDdClear (s : State) : Host.Outcome State Fault Refusal := .next (s.drive (clearAllDigits s.cfg))

end Sys2Proof.Machine
end

