-- ==== Sys2Proof/Machine/FrameBuffer.lean ====
section
/-! DEFINITION. The frame buffer commands (41_framebuffer). None faults because of a coordinate (R130), none writes
`BUS_HIST` or `DEVREG`. -/

namespace Sys2Proof.Machine

/-- `FB.WRITE` (41_framebuffer R131). -/
def execFbWrite (e : ElemWidth) (x y wd ht : Word) (rows : List Nat) (s : State) : Host.Outcome State Fault Refusal :=
  .next ({ s with fb := fbWritten s.cfg e.bits (s32 x) (s32 y) (s32 wd) (s32 ht) rows s.fb }.ok [])

/-- `FB.CLEAR` (41_framebuffer R134). -/
def execFbClear (x y wd ht : Word) (s : State) : Host.Outcome State Fault Refusal :=
  .next ({ s with fb := fbCleared s.cfg (s32 x) (s32 y) (s32 wd) (s32 ht) s.fb }.ok [])

/-- `FB.CLEARALL` (41_framebuffer R136): every row is zero. -/
def execFbClearAll (s : State) : Host.Outcome State Fault Refusal :=
  .next ({ s with fb := List.replicate s.cfg.height 0 }.ok [])

/-- `FB.TURNDOT` (41_framebuffer R137): one pixel, nothing outside the buffer. -/
def execFbTurnDot (on : Bool) (x y : Word) (s : State) : Host.Outcome State Fault Refusal :=
  .next ({ s with fb := pixWriteClipped s.cfg s.fb (s32 x) (s32 y) on }.ok [])

/-- `FB.EXTH` (41_framebuffer R140): one result word, the byte zero-extended (30_encoding R86). -/
def execFbExtH (rev : Bool) (x y : Word) (s : State) : Host.Outcome State Fault Refusal :=
  .next (s.ok [(extH s.cfg s.fb (s32 x) (s32 y) rev).setWidth 32])

/-- `FB.EXTV` (41_framebuffer R141). -/
def execFbExtV (rev : Bool) (x y : Word) (s : State) : Host.Outcome State Fault Refusal :=
  .next (s.ok [(extV s.cfg s.fb (s32 x) (s32 y) rev).setWidth 32])

/-- `FB.WIDTH` (41_framebuffer R143). -/
def execFbWidth (s : State) : Host.Outcome State Fault Refusal :=
  .next (s.ok [BitVec.ofNat 32 s.cfg.width])

/-- `FB.HEIGHT` (41_framebuffer R144). -/
def execFbHeight (s : State) : Host.Outcome State Fault Refusal :=
  .next (s.ok [BitVec.ofNat 32 s.cfg.height])

end Sys2Proof.Machine
end

