-- ==== Sys2Proof/Machine/WireFrames.lean ====
section
/-! DEFINITION. What a device does with the wire frame it latches (30_encoding R87, 42_display_driver R192): one meaning per
`WIRE.*` row, for the device `latchDev` (log 10). A device answers nothing (42_display_driver R195), so `RESP` is
unchanged. `State.latch` does the same for each frame of a transaction. -/

namespace Sys2Proof.Machine

/-- `WIRE.NOOP`, address 0: the device's registers are unchanged (42_display_driver R192). -/
def execWireNoop (_data : Byte) (s : State) : Host.Outcome State Fault Refusal := .next s

/-- Address 1: row data for scan line 0. -/
def execWireRow0 (data : Byte) (s : State) : Host.Outcome State Fault Refusal := .next (s.devWrite s.latchDev .row0 data)

/-- Address 2: row data for scan line 1. -/
def execWireRow1 (data : Byte) (s : State) : Host.Outcome State Fault Refusal := .next (s.devWrite s.latchDev .row1 data)

/-- Address 3: row data for scan line 2. -/
def execWireRow2 (data : Byte) (s : State) : Host.Outcome State Fault Refusal := .next (s.devWrite s.latchDev .row2 data)

/-- Address 4: row data for scan line 3. -/
def execWireRow3 (data : Byte) (s : State) : Host.Outcome State Fault Refusal := .next (s.devWrite s.latchDev .row3 data)

/-- Address 5: row data for scan line 4. -/
def execWireRow4 (data : Byte) (s : State) : Host.Outcome State Fault Refusal := .next (s.devWrite s.latchDev .row4 data)

/-- Address 6: row data for scan line 5. -/
def execWireRow5 (data : Byte) (s : State) : Host.Outcome State Fault Refusal := .next (s.devWrite s.latchDev .row5 data)

/-- Address 7: row data for scan line 6. -/
def execWireRow6 (data : Byte) (s : State) : Host.Outcome State Fault Refusal := .next (s.devWrite s.latchDev .row6 data)

/-- Address 8: row data for scan line 7. -/
def execWireRow7 (data : Byte) (s : State) : Host.Outcome State Fault Refusal := .next (s.devWrite s.latchDev .row7 data)

/-- Address 9: decode-mode. -/
def execWireDecode (data : Byte) (s : State) : Host.Outcome State Fault Refusal := .next (s.devWrite s.latchDev .decodeMode data)

/-- Address 10: intensity. -/
def execWireIntensity (data : Byte) (s : State) : Host.Outcome State Fault Refusal := .next (s.devWrite s.latchDev .intensity data)

/-- Address 11: scan-limit. -/
def execWireScanLimit (data : Byte) (s : State) : Host.Outcome State Fault Refusal := .next (s.devWrite s.latchDev .scanLimit data)

/-- Address 12: shutdown. -/
def execWireShutdown (data : Byte) (s : State) : Host.Outcome State Fault Refusal := .next (s.devWrite s.latchDev .shutdown data)

/-- Address 15: display-test. -/
def execWireTest (data : Byte) (s : State) : Host.Outcome State Fault Refusal := .next (s.devWrite s.latchDev .displayTest data)

end Sys2Proof.Machine
end

