-- ==== Sys2Proof/Machine/Dispatch.lean ====
section
/-! DEFINITION. Every instruction and its meaning. A command's meaning is that of a block that is not halted: `fetch` answers
HALTED before any command of a halted block reaches it (60_exceptions R225, log 12). -/

namespace Sys2Proof.Machine

def exec (i : Instr) (s : State) : Host.Outcome State Fault Refusal :=
  match i with
  | .brSet v n start len val => Sys2Proof.Machine.execBrSet v n start len val s
  | .brFlip n start len val => Sys2Proof.Machine.execBrFlip n start len val s
  | .brExtract n m start val => Sys2Proof.Machine.execBrExtract n m start val s
  | .brReverse n val => Sys2Proof.Machine.execBrReverse n val s
  | .fbWrite e x y wd ht rows => Sys2Proof.Machine.execFbWrite e x y wd ht rows s
  | .fbClear x y wd ht => Sys2Proof.Machine.execFbClear x y wd ht s
  | .fbClearAll => Sys2Proof.Machine.execFbClearAll s
  | .fbTurnDot on x y => Sys2Proof.Machine.execFbTurnDot on x y s
  | .fbExtH rev x y => Sys2Proof.Machine.execFbExtH rev x y s
  | .fbExtV rev x y => Sys2Proof.Machine.execFbExtV rev x y s
  | .fbWidth => Sys2Proof.Machine.execFbWidth s
  | .fbHeight => Sys2Proof.Machine.execFbHeight s
  | .ddInit => Sys2Proof.Machine.execDdInit s
  | .ddBcast addr data => Sys2Proof.Machine.execDdBcast addr data s
  | .ddSend => Sys2Proof.Machine.execDdSend s
  | .ddIntensity value => Sys2Proof.Machine.execDdIntensity value s
  | .ddIntensityPd values => Sys2Proof.Machine.execDdIntensityPd values s
  | .ddShutdown on => Sys2Proof.Machine.execDdShutdown on s
  | .ddTest on => Sys2Proof.Machine.execDdTest on s
  | .ddClear => Sys2Proof.Machine.execDdClear s
  | .wireNoop data => Sys2Proof.Machine.execWireNoop data s
  | .wireRow0 data => Sys2Proof.Machine.execWireRow0 data s
  | .wireRow1 data => Sys2Proof.Machine.execWireRow1 data s
  | .wireRow2 data => Sys2Proof.Machine.execWireRow2 data s
  | .wireRow3 data => Sys2Proof.Machine.execWireRow3 data s
  | .wireRow4 data => Sys2Proof.Machine.execWireRow4 data s
  | .wireRow5 data => Sys2Proof.Machine.execWireRow5 data s
  | .wireRow6 data => Sys2Proof.Machine.execWireRow6 data s
  | .wireRow7 data => Sys2Proof.Machine.execWireRow7 data s
  | .wireDecode data => Sys2Proof.Machine.execWireDecode data s
  | .wireIntensity data => Sys2Proof.Machine.execWireIntensity data s
  | .wireScanLimit data => Sys2Proof.Machine.execWireScanLimit data s
  | .wireShutdown data => Sys2Proof.Machine.execWireShutdown data s
  | .wireTest data => Sys2Proof.Machine.execWireTest data s

end Sys2Proof.Machine
end

