-- ==== Sys2Proof/Machine/Fetch.lean ====
section
/-! DEFINITION. What the machine does next: a device latches a waiting wire frame, or the block takes the host's next input.
The block has no program counter and fetches nothing (10_state R22); its instructions come on the CMD port (20_memory
R67). -/

namespace Sys2Proof.Machine

/-- What `fetch` finds: an instruction to run and the state to run it in, a step that is complete without one, or a stop. -/
inductive Fetched where
  | run (i : Instr) (s : State)
  | done (s : State)
  | stop (f : Fault)

/-- The next command frame. Halted: HALTED, no effect (60_exceptions R225). Malformed: its fault is taken (60_exceptions R223,
R224). Legal: its instruction runs. -/
def fetchFrame (f : CmdFrame) (s : State) : Fetched :=
  if s.halted then .done (s.respond .halted)
  else
    match decodeCmd f with
    | .ok i => .run i s
    | .error c => .done (s.takeFault (hdrOp f.header) c)

/-- The wire frame device `k` latches next. An address the source does not assign leaves the device's registers at any value
(42_display_driver R193). -/
def fetchWire (k : Nat) (f : Frame) (s : State) : Fetched :=
  if k < s.cfg.n then
    match decodeWire f with
    | some i => .run i { s with latchDev := k }
    | none => .done (s.devForget k)
  else .stop .noSuchDevice

/-- A waiting wire frame is latched before the block takes another input (a command's transactions have ended before the next
command, 20_memory R65). With nothing to do the block waits (70_reset_and_hazards R251, log 8). -/
def fetch (s : State) : Fetched :=
  match s.wireIn, s.cmdIn with
  | (k, f) :: rest, _ => fetchWire k f { s with wireIn := rest }
  | [], .frame f :: rest => fetchFrame f { s with cmdIn := rest }
  | [], .rst :: rest => .done { s with cmdIn := rest }.blockReset
  | [], [] => .done s

/-- A code stored where the machine takes its next instruction: a command at the head of the CMD queue with no wire frame
waiting, a wire frame at the head of the wire queue for device 0. -/
def placeCode (c : Code) (s : State) : State :=
  match c with
  | .cmd f => { s with wireIn := [], cmdIn := .frame f :: s.cmdIn }
  | .wire f => { s with wireIn := (0, f) :: s.wireIn }

end Sys2Proof.Machine
end

