-- ==== Sys2Proof/Machine/Assembler.lean ====
section
/-! DEFINITION. The assembly lines of the spec and its pseudo-instructions (30_encoding R89, R90), as data: a line is a
mnemonic, the flag written after the dot, and the operands (log 20). -/

namespace Sys2Proof.Machine

/-- An operand: a number, or a bracketed list. -/
inductive AsmArg where
  | num (v : Int)
  | list (vs : List Int)
deriving DecidableEq, Repr

/-- The pseudo-instructions (30_encoding R90). -/
inductive Pseudo where
  | setDot
  | clrDot
  | on
  | off
  | nop
  | digit
  | decode
  | scanLimit
deriving DecidableEq, Repr

/-- One line: a command with its flag suffix, or a pseudo-instruction. -/
inductive AsmLine where
  | core (op : Op) (flag : Option Bool) (args : List AsmArg)
  | pseudo (p : Pseudo) (args : List AsmArg)
deriving DecidableEq, Repr

/-- The mnemonic of a command (30_encoding R81). -/
def opMnemonic : Op → String
  | .brSet => "BR.SET"
  | .brFlip => "BR.FLIP"
  | .brExtract => "BR.EXTRACT"
  | .brReverse => "BR.REVERSE"
  | .fbWrite => "FB.WRITE"
  | .fbClear => "FB.CLEAR"
  | .fbClearAll => "FB.CLEARALL"
  | .fbTurnDot => "FB.TURNDOT"
  | .fbExtH => "FB.EXTH"
  | .fbExtV => "FB.EXTV"
  | .fbWidth => "FB.WIDTH"
  | .fbHeight => "FB.HEIGHT"
  | .ddInit => "DD.INIT"
  | .ddBcast => "DD.BCAST"
  | .ddSend => "DD.SEND"
  | .ddIntensity => "DD.INTENSITY"
  | .ddIntensityPd => "DD.INTENSITYPD"
  | .ddShutdown => "DD.SHUTDOWN"
  | .ddTest => "DD.TEST"
  | .ddClear => "DD.CLEAR"

/-- The mnemonic of a pseudo-instruction (30_encoding R90). -/
def pseudoMnemonic : Pseudo → String
  | .setDot => "FB.SETDOT"
  | .clrDot => "FB.CLRDOT"
  | .on => "DD.ON"
  | .off => "DD.OFF"
  | .nop => "DD.NOP"
  | .digit => "DD.DIGIT"
  | .decode => "DD.DECODE"
  | .scanLimit => "DD.SCANLIMIT"

/-- A number in `0 .. b - 1`. -/
def natArg (b : Nat) (v : Int) : Option Nat := if 0 ≤ v ∧ v < (b : Int) then some v.toNat else none

/-- An unsigned operand of `w` bits. -/
def bitsArg (w : Nat) (v : Int) : Option (BitVec w) := (natArg (2 ^ w) v).map (BitVec.ofNat w)

/-- A signed 32-bit operand. -/
def signedArg (v : Int) : Option Word := if -2147483648 ≤ v ∧ v < 2147483648 then some (BitVec.ofInt 32 v) else none

/-- A width operand `N` or `M`, `1 .. 255`. -/
def widthArg (v : Int) : Option Byte := (bitsArg 8 v).filter widthOk

/-- An element width operand `S`. -/
def elemArg (v : Int) : Option ElemWidth := (bitsArg 8 v).bind elemWidthOf

/-- The instruction a command's line stands for (30_encoding R89). -/
def assembleCore (op : Op) (flag : Option Bool) (args : List AsmArg) : Option Instr :=
  match op with
  | .brSet =>
    match flag, args with
    | some v, [.num n, .num st, .num ln, .num val] => do
      let n ← widthArg n
      return .brSet v n (← bitsArg 32 st) (← bitsArg 32 ln) (← natArg (2 ^ n.toNat) val)
    | _, _ => none
  | .brFlip =>
    match flag, args with
    | none, [.num n, .num st, .num ln, .num val] => do
      let n ← widthArg n
      return .brFlip n (← bitsArg 32 st) (← bitsArg 32 ln) (← natArg (2 ^ n.toNat) val)
    | _, _ => none
  | .brExtract =>
    match flag, args with
    | none, [.num n, .num m, .num st, .num val] => do
      let n ← widthArg n
      return .brExtract n (← widthArg m) (← bitsArg 32 st) (← natArg (2 ^ n.toNat) val)
    | _, _ => none
  | .brReverse =>
    match flag, args with
    | none, [.num n, .num val] => do
      let n ← widthArg n
      return .brReverse n (← natArg (2 ^ n.toNat) val)
    | _, _ => none
  | .fbWrite =>
    match flag, args with
    | none, [.num e, .num x, .num y, .num wd, .num ht, .list rows] => do
      let e ← elemArg e
      let rows ← rows.mapM (natArg (2 ^ e.bits))
      if (rows.length : Int) = max ht 0 then
        return .fbWrite e (← signedArg x) (← signedArg y) (← signedArg wd) (← signedArg ht) rows
      else none
    | _, _ => none
  | .fbClear =>
    match flag, args with
    | none, [.num x, .num y, .num wd, .num ht] => do
      return .fbClear (← signedArg x) (← signedArg y) (← signedArg wd) (← signedArg ht)
    | _, _ => none
  | .fbClearAll => if flag = none ∧ args = [] then some .fbClearAll else none
  | .fbTurnDot =>
    match flag, args with
    | some on, [.num x, .num y] => do return .fbTurnDot on (← signedArg x) (← signedArg y)
    | _, _ => none
  | .fbExtH =>
    match flag, args with
    | some rev, [.num x, .num y] => do return .fbExtH rev (← signedArg x) (← signedArg y)
    | _, _ => none
  | .fbExtV =>
    match flag, args with
    | some rev, [.num x, .num y] => do return .fbExtV rev (← signedArg x) (← signedArg y)
    | _, _ => none
  | .fbWidth => if flag = none ∧ args = [] then some .fbWidth else none
  | .fbHeight => if flag = none ∧ args = [] then some .fbHeight else none
  | .ddInit => if flag = none ∧ args = [] then some .ddInit else none
  | .ddBcast =>
    match flag, args with
    | none, [.num a, .num d] => do return .ddBcast (← bitsArg 8 a) (← bitsArg 8 d)
    | _, _ => none
  | .ddSend => if flag = none ∧ args = [] then some .ddSend else none
  | .ddIntensity =>
    match flag, args with
    | none, [.num v] => do return .ddIntensity (← bitsArg 32 v)
    | _, _ => none
  | .ddIntensityPd =>
    match flag, args with
    | none, [.list vs] => do
      let vs ← vs.mapM (bitsArg 32)
      if vs.length < 2 ^ 32 then return .ddIntensityPd vs else none
    | _, _ => none
  | .ddShutdown =>
    match flag, args with
    | some on, [] => some (.ddShutdown on)
    | _, _ => none
  | .ddTest =>
    match flag, args with
    | some on, [] => some (.ddTest on)
    | _, _ => none
  | .ddClear => if flag = none ∧ args = [] then some .ddClear else none

/-- The line a pseudo-instruction expands to (30_encoding R90); `DD.DIGIT` takes a digit `0 .. 7`. -/
def expandPseudo (p : Pseudo) (args : List AsmArg) : Option AsmLine :=
  match p with
  | .setDot => some (.core .fbTurnDot (some true) args)
  | .clrDot => some (.core .fbTurnDot (some false) args)
  | .on => some (.core .ddShutdown (some false) args)
  | .off => some (.core .ddShutdown (some true) args)
  | .nop => if args = [] then some (.core .ddBcast none [.num 0, .num 0]) else none
  | .digit =>
    match args with
    | [.num k, d] => if 0 ≤ k ∧ k ≤ 7 then some (.core .ddBcast none [.num (k + 1), d]) else none
    | _ => none
  | .decode =>
    match args with
    | [d] => some (.core .ddBcast none [.num 9, d])
    | _ => none
  | .scanLimit =>
    match args with
    | [d] => some (.core .ddBcast none [.num 11, d])
    | _ => none

/-- The instruction a line stands for. -/
def assemble : AsmLine → Option Instr
  | .core op flag args => assembleCore op flag args
  | .pseudo p args =>
    match expandPseudo p args with
    | some (.core op flag args) => assembleCore op flag args
    | _ => none

/-- An unsigned word as an operand. -/
def uNum {w : Nat} (v : BitVec w) : AsmArg := .num v.toNat

/-- A signed word as an operand. -/
def sNum (v : Word) : AsmArg := .num v.toInt

/-- The line of a command (30_encoding R89); a wire frame is not a command and has none. -/
def disassemble : Instr → Option AsmLine
  | .brSet v n start len val => some (.core .brSet (some v) [uNum n, uNum start, uNum len, .num val])
  | .brFlip n start len val => some (.core .brFlip none [uNum n, uNum start, uNum len, .num val])
  | .brExtract n m start val => some (.core .brExtract none [uNum n, uNum m, uNum start, .num val])
  | .brReverse n val => some (.core .brReverse none [uNum n, .num val])
  | .fbWrite e x y wd ht rows =>
    some (.core .fbWrite none [.num e.bits, sNum x, sNum y, sNum wd, sNum ht, .list (rows.map Int.ofNat)])
  | .fbClear x y wd ht => some (.core .fbClear none [sNum x, sNum y, sNum wd, sNum ht])
  | .fbClearAll => some (.core .fbClearAll none [])
  | .fbTurnDot on x y => some (.core .fbTurnDot (some on) [sNum x, sNum y])
  | .fbExtH rev x y => some (.core .fbExtH (some rev) [sNum x, sNum y])
  | .fbExtV rev x y => some (.core .fbExtV (some rev) [sNum x, sNum y])
  | .fbWidth => some (.core .fbWidth none [])
  | .fbHeight => some (.core .fbHeight none [])
  | .ddInit => some (.core .ddInit none [])
  | .ddBcast addr data => some (.core .ddBcast none [uNum addr, uNum data])
  | .ddSend => some (.core .ddSend none [])
  | .ddIntensity value => some (.core .ddIntensity none [uNum value])
  | .ddIntensityPd values => some (.core .ddIntensityPd none [.list (values.map (fun v => (v.toNat : Int)))])
  | .ddShutdown on => some (.core .ddShutdown (some on) [])
  | .ddTest on => some (.core .ddTest (some on) [])
  | .ddClear => some (.core .ddClear none [])
  | .wireNoop _ => none
  | .wireRow0 _ => none
  | .wireRow1 _ => none
  | .wireRow2 _ => none
  | .wireRow3 _ => none
  | .wireRow4 _ => none
  | .wireRow5 _ => none
  | .wireRow6 _ => none
  | .wireRow7 _ => none
  | .wireDecode _ => none
  | .wireIntensity _ => none
  | .wireScanLimit _ => none
  | .wireShutdown _ => none
  | .wireTest _ => none

end Sys2Proof.Machine
end

