-- ==== Sys2Proof/Machine/SerialBus.lean ====
section
/-! DEFINITION. The pin-level form of a transaction and the chain that receives it (42_display_driver R190), and its length
in clock periods (70_reset_and_hazards R264). State keeps whole transactions, since a transaction is atomic (10_state R36);
this file says what one looks like on CS_N, CLK and DIN (log 18). The bit order, the clock edge and the idle levels are
PRESUMED by the spec itself (log 15). -/

namespace Sys2Proof.Machine

/-- One change on the bus. -/
inductive PinEvent where
  | csFall
  | setDin (b : Bool)
  | clkRise
  | clkFall
  | csRise
deriving DecidableEq, Repr

/-- The bits of one frame, most significant first, each with its clock pulse (42_display_driver R190). -/
def frameEvents (f : Frame) : List PinEvent :=
  (List.range 16).flatMap (fun k => [.setDin (f.getLsbD (15 - k)), .clkRise, .clkFall])

/-- `Emit` on the pins: chip-select low, the frames first to last, chip-select high (42_display_driver R190). -/
def wireForm (fs : Transaction) : List PinEvent := .csFall :: fs.flatMap frameEvents ++ [.csRise]

/-- The block's three serial outputs and the chain behind them: the shift register of each device, farthest first, and what
the devices have latched at each chip-select rise, oldest first. -/
structure Bus where
  csN     : Bool
  clk     : Bool
  din     : Bool
  shift   : List Frame
  latched : List (List Frame)
deriving DecidableEq, Repr

/-- A 16-bit shift register takes one bit at its low end. -/
def shiftIn (r : Frame) (b : Bool) : Frame := r.extractLsb' 0 15 ++ BitVec.ofBool b

/-- One clock of the chain, farthest device first: the nearest device takes `DIN`, every other the top bit of the next nearer
one (10_state R32, 42_display_driver R190). -/
def shiftChain (din : Bool) : List Frame → List Frame
  | [] => []
  | [r] => [shiftIn r din]
  | r :: r' :: rest => shiftIn r (r'.getLsbD 15) :: shiftChain din (r' :: rest)

/-- The effect of one change: the devices sample `DIN` on the rising clock edge and latch when chip-select rises
(42_display_driver R190). -/
def Bus.apply (b : Bus) : PinEvent → Bus
  | .csFall => { b with csN := false }
  | .setDin v => { b with din := v }
  | .clkRise => { b with clk := true, shift := shiftChain b.din b.shift }
  | .clkFall => { b with clk := false }
  | .csRise => { b with csN := true, latched := b.latched ++ [b.shift] }

/-- The effect of a sequence of changes. -/
def Bus.run (b : Bus) (es : List PinEvent) : Bus := es.foldl Bus.apply b

/-- Everything the block has done on its serial pins since reset. -/
def State.waveform (s : State) : List PinEvent := s.busHist.flatMap wireForm

/-- The clock periods of a sequence of changes. -/
def clockPeriods (es : List PinEvent) : Nat := es.countP (fun e => e == .clkRise)

/-- The least time some transactions take, in nanoseconds, for a clock of `f` hertz and a chip-select-high time of `t`
nanoseconds between two transactions (70_reset_and_hazards R261, R264). -/
def minTimeNs (f t : Nat) (ts : List Transaction) : Nat :=
  clockPeriods (ts.flatMap wireForm) * 1000000000 / f + (ts.length - 1) * t

/-- The same for the open parameters `F_CLK` and `T_CSH` (00_scope R12). -/
def busTimeNs (ts : List Transaction) : Nat := minTimeNs Config.fClk Config.tCsh ts

end Sys2Proof.Machine
end

