-- ==== Sys2Proof/Safety.lean ====
section
/-! DEFINITION. What claims are stated with: the invariant of the machine's states, what a fault-free state is, and the four
ways an instruction may leave the state. -/

namespace Sys2Proof.Machine

/-- What holds of every state the machine can be in. -/
structure State.Inv (s : State) : Prop where
  /-- The configuration is one the spec admits (00_scope R9, R10). -/
  cfgLegal : s.cfg.legal = true
  /-- `HEIGHT` rows of `WIDTH` bits (10_state R24). -/
  fbWf : Memory.wf s.cfg s.fb = true
  /-- `FAULT` is 0 or the word some fault recorded, so its reserved fields read 0 (10_state R27). -/
  faultReads : s.fault = 0 ∨ ∃ op c, s.fault = faultWord op c
  /-- The bus is idle between steps (10_state R33). -/
  busIdle : s.csN = true ∧ s.clk = false
  /-- Every transaction carried one frame per device (42_display_driver R170). -/
  histFull : ∀ t ∈ s.busHist, t.length = s.cfg.n
  /-- One set of registers per device (10_state R35). -/
  devCount : s.devreg.length = s.cfg.n

/-- No fault has been recorded since reset (60_exceptions R236). -/
def State.FaultFree (s : State) : Prop := faultV s.fault = false

/-- `s` with one more response, `OK` and the words `ws`, and nothing else changed. -/
def State.answered (s : State) (ws : List Word) : State := { s with resp := s.resp ++ [.ok ws] }

/-- `s` with the fault of cause `c` recorded for opcode `op` and answered, and nothing else changed (60_exceptions R224). -/
def State.faulted (s : State) (op : Byte) (c : Cause) : State :=
  { s with fault := faultWord op c, resp := s.resp ++ [.fault] }

/-- `s` with the frame buffer `g`, answered `OK` with no result, and nothing else changed. -/
def State.drew (s : State) (g : List Nat) : State := { s with fb := g, resp := s.resp ++ [.ok []] }

/-- From `s` to `t` the block sent the transactions `ts` and answered `OK` with no result; the bus is idle again. Every field
but `devreg`, `din` and the draw counter is fixed here: what the devices hold is said beside it, `DIN` is unspecified between
transactions (10_state R33). -/
structure State.Sent (s t : State) (ts : List Transaction) : Prop where
  busHist : t.busHist = s.busHist ++ ts
  resp : t.resp = s.resp ++ [.ok []]
  csN : t.csN = true
  clk : t.clk = false
  cfg : t.cfg = s.cfg
  fb : t.fb = s.fb
  fault : t.fault = s.fault
  devCount : t.devreg.length = s.devreg.length
  cmdIn : t.cmdIn = s.cmdIn
  wireIn : t.wireIn = s.wireIn
  latchDev : t.latchDev = s.latchDev

/-- The register of a device that holds row data, `row0` to `row7` (10_state R35). -/
def isRow (r : DevReg) : Bool := decide (regAddr r ≤ 8)

end Sys2Proof.Machine
end

