-- ==== Sys2Proof/Certificates/Slice0/Obligations.lean ====
section
/-! DEFINITION. The statements for the provers. -/

open Sys2Proof Sys2Proof.Machine

/-! ### Steps, faults and reset

The CMD and RST ports of 10_state R32 are the queue `cmdIn` (log 7); an instruction's step is `exec` of it in the state with the
input taken off the queue. -/

/-- A legal command frame at the head of the CMD queue is run: the step is the meaning of the instruction it decodes to, with
the frame taken (20_memory R63, R67). -/
def Obligations.StepRunsTheDecodedCommand : Prop :=
  ∀ (s : State) (f : CmdFrame) (rest : List HostInput) (i : Instr),
    s.wireIn = [] → s.cmdIn = .frame f :: rest → faultV s.fault = false → decodeCmd f = .ok i →
    step s = exec i { s with cmdIn := rest }

/-- A wire frame waiting for a device of the chain is run as that device's instruction; one with an address the source does
not assign ends the step with that device's registers at any value. The queue is the model's own (log 10). -/
def Obligations.StepRunsTheLatchedWireFrame : Prop :=
  ∀ (s : State) (k : Nat) (f : Frame) (rest : List (Nat × Frame)),
    s.wireIn = (k, f) :: rest → k < s.cfg.n →
    (∀ i, decodeWire f = some i → step s = exec i { s with wireIn := rest, latchDev := k }) ∧
    (decodeWire f = none → step s = .next ({ s with wireIn := rest }.devForget k))

/-- Fault entry (60_exceptions R224) for a malformed frame: `FAULT` holds `V = 1`, the header's `OP` byte and the cause, its
reserved fields read 0, the response is FAULT with no result words, and every other field is as before (the frame is taken
off the queue). -/
def Obligations.MalformedCommandTakesItsFault : Prop :=
  ∀ (s : State) (f : CmdFrame) (rest : List HostInput) (c : Cause),
    s.wireIn = [] → s.cmdIn = .frame f :: rest → faultV s.fault = false → decodeCmd f = .error c →
    ∃ t, step s = .next t ∧ t = { s with cmdIn := rest, fault := t.fault, resp := s.resp ++ [.fault] } ∧
      faultV t.fault = true ∧ faultOp t.fault = hdrOp f.header ∧ faultCause t.fault = causeCode c ∧ faultReserved t.fault = 0

/-- The halted state (60_exceptions R225): every frame, legal or not, is answered HALTED with no result words and has no
effect. -/
def Obligations.HaltedBlockOnlyAnswersHalted : Prop :=
  ∀ (s : State) (f : CmdFrame) (rest : List HostInput),
    s.wireIn = [] → s.cmdIn = .frame f :: rest → faultV s.fault = true →
    step s = .next { s with cmdIn := rest, resp := s.resp ++ [.halted] }

/-- Only reset clears `FAULT` and leaves the halted state, and faults do not nest (60_exceptions R226): from a halted state
every step keeps `FAULT`, or is a reset, which clears it. -/
def Obligations.OnlyResetLeavesTheHaltedState : Prop :=
  ∀ s t : State, faultV s.fault = true → step s = .next t →
    t.fault = s.fault ∨ (t.fault = 0 ∧ s.wireIn = [] ∧ ∃ rest, s.cmdIn = .rst :: rest)

/-- A step that records a fault takes exactly one command frame off the queue, records that frame's `OP` with one of the six
causes of 60_exceptions R221 under its code, raised by the commands the table names, and changes nothing else. -/
def Obligations.FaultsArePreciseAndNameTheirCommand : Prop :=
  ∀ s t : State, faultV s.fault = false → step s = .next t → faultV t.fault = true →
    ∃ (f : CmdFrame) (rest : List HostInput) (c : Cause),
      s.cmdIn = .frame f :: rest ∧ t = ({ s with cmdIn := rest } : State).faulted (hdrOp f.header) c ∧
      (faultCause t.fault).toNat =
        (match c with
         | .illegalOpcode => 0x01
         | .reservedField => 0x02
         | .framing => 0x03
         | .brStart => 0x10
         | .intensityLength => 0x11
         | .intensityValue => 0x12) ∧
      (match c with
       | .illegalOpcode => opOf (hdrOp f.header) = none
       | .reservedField => opOf (hdrOp f.header) ≠ none
       | .framing => opOf (hdrOp f.header) ≠ none
       | .brStart => hdrOp f.header = 0x01 ∨ hdrOp f.header = 0x02 ∨ hdrOp f.header = 0x03
       | .intensityLength => hdrOp f.header = 0x24
       | .intensityValue => hdrOp f.header = 0x23 ∨ hdrOp f.header = 0x24)

/-- With no input and no frame to latch the block waits (70_reset_and_hazards R251); the queue is the model's own (log 7,
log 8). -/
def Obligations.WaitingBlockChangesNothing : Prop :=
  ∀ s : State, s.wireIn = [] → s.cmdIn = [] → step s = .next s

/-- Reset (10_state R37, 70_reset_and_hazards R250): at power-up and after RST, `FAULT` is 0, `CS_N` 1, `CLK` 0, `BUS_HIST`
empty and the frame buffer some content of the right form; the configuration is unchanged, and RST leaves the devices'
registers as they were. `FB_INIT`, `DEV_INIT` and `DIN` are unspecified, so nothing is said of their values. -/
def Obligations.ResetLeavesTheStatedValues : Prop :=
  (∀ c : Instance, (State.powerUp c).fault = 0 ∧ (State.powerUp c).csN = true ∧ (State.powerUp c).clk = false ∧
    (State.powerUp c).busHist = [] ∧ (State.powerUp c).cfg = c ∧ Memory.wf c (State.powerUp c).fb = true ∧
    (State.powerUp c).devreg.length = c.n) ∧
  ∀ (s : State) (rest : List HostInput), s.wireIn = [] → s.cmdIn = .rst :: rest →
    ∃ t, step s = .next t ∧ t.fault = 0 ∧ faultV t.fault = false ∧ t.csN = true ∧ t.clk = false ∧ t.busHist = [] ∧
      t.cfg = s.cfg ∧ Memory.wf s.cfg t.fb = true ∧ t.devreg = s.devreg ∧ t.cmdIn = rest

/-- The state after power-up and reset satisfies the invariant, for every legal configuration and for the instance of log 1. -/
def Obligations.ResetStateSatisfiesTheInvariant : Prop :=
  (∀ c : Instance, c.legal = true → (State.powerUp c).Inv) ∧ State.reset.Inv

/-- Every step keeps the invariant: the configuration is legal, the frame buffer has `HEIGHT` rows of `WIDTH` bits, the
reserved fields of `FAULT` read 0, the bus is idle, every transaction had one frame per device, every device has its
registers. -/
def Obligations.EveryStepKeepsTheInvariant : Prop :=
  ∀ s t : State, s.Inv → step s = .next t → t.Inv

/-- No step changes the configuration (10_state R20). -/
def Obligations.NoStepChangesTheConfiguration : Prop :=
  ∀ s t : State, step s = .next t → t.cfg = s.cfg

/-- Every command frame gets exactly one response (30_encoding R86): a step that takes a frame off the queue appends one
response, FAULT exactly when it records a fault, HALTED exactly when the block was halted. -/
def Obligations.EveryCommandGetsExactlyOneResponse : Prop :=
  ∀ (s : State) (f : CmdFrame) (rest : List HostInput), s.wireIn = [] → s.cmdIn = .frame f :: rest →
    ∃ t r, step s = .next t ∧ t.cmdIn = rest ∧ t.resp = s.resp ++ [r] ∧
      (r = .halted ↔ faultV s.fault = true) ∧ (r = .fault ↔ faultV s.fault = false ∧ faultV t.fault = true)

/-- The frame buffer is written only by the four drawing commands and read only by the two extractions and `DD.SEND`
(10_state R25): every other instruction leaves it unchanged, and does the same whatever it holds. -/
def Obligations.OnlyDrawingCommandsTouchTheFrameBuffer : Prop :=
  ∀ (i : Instr) (s : State),
    (∀ e x y wd ht rows, i ≠ .fbWrite e x y wd ht rows) → (∀ x y wd ht, i ≠ .fbClear x y wd ht) → i ≠ .fbClearAll →
    (∀ on x y, i ≠ .fbTurnDot on x y) →
    (∀ t, exec i s = .next t → t.fb = s.fb) ∧
    ((∀ rev x y, i ≠ .fbExtH rev x y) → (∀ rev x y, i ≠ .fbExtV rev x y) → i ≠ .ddSend →
      ∀ (g : List Nat) (t : State), exec i s = .next t → exec i { s with fb := g } = .next { t with fb := g })

/-- Whatever an instruction does, the transactions it appends carry one frame per device, and one that sends something leaves
`FB` and `FAULT` alone and answers `OK`. No `DD.*` command writes `FB`, and none writes `FAULT` but by the fault step, and then
it sends nothing and changes nothing else (42_display_driver R170). -/
def Obligations.DriverTransactionsCarryOneFramePerDevice : Prop :=
  ∀ (i : Instr) (s : State), ∃ t, exec i s = .next t ∧
    ∃ ts, t.busHist = s.busHist ++ ts ∧ (∀ x ∈ ts, x.length = s.cfg.n) ∧
      (ts ≠ [] → t.fb = s.fb ∧ t.fault = s.fault ∧ t.resp = s.resp ++ [.ok []]) ∧
      ((i = .ddInit ∨ (∃ a d, i = .ddBcast a d) ∨ i = .ddSend ∨ (∃ v, i = .ddIntensity v) ∨ (∃ vs, i = .ddIntensityPd vs) ∨
        (∃ on, i = .ddShutdown on) ∨ (∃ on, i = .ddTest on) ∨ i = .ddClear) →
        t.fb = s.fb ∧ (t.fault = s.fault ∨ (ts = [] ∧ ∃ op c, t = s.faulted op c)))

/-! ### Encoding -/

/-- Words written out from the spec's encodings (95_test_vectors) decode to the instructions they stand for. -/
def Obligations.WrittenOutWordsDecode : Prop :=
  decodeCmd ⟨0x01800800, [2, 3, 0]⟩ = .ok (.brSet true 8 2 3 0) ∧
  decodeCmd ⟨0x04002800, [1, 0]⟩ = .ok (.brReverse 40 1) ∧
  decodeCmd ⟨0x10000008, [0xFFFFFFFD, 0, 8, 1, 0xFF]⟩ = .ok (.fbWrite .w8 0xFFFFFFFD 0 8 1 [0xFF]) ∧
  decodeCmd ⟨0x14800000, [100, 0]⟩ = .ok (.fbExtH true 100 0) ∧
  decodeCmd ⟨0x21000000, [0x0A07]⟩ = .ok (.ddBcast 10 7) ∧
  decodeCmd ⟨0x24000000, [2, 3, 9]⟩ = .ok (.ddIntensityPd [3, 9]) ∧
  decodeCmd ⟨0x00400000, [0]⟩ = .error .illegalOpcode ∧
  decodeCmd ⟨0x12400000, [0]⟩ = .error .reservedField ∧
  decodeCmd ⟨0x13800000, [3]⟩ = .error .framing ∧
  decodeCmd ⟨0x04000800, [0x100]⟩ = .error .reservedField ∧
  decodeWire 0x0C01 = some (.wireShutdown 1)

/-- Decoding an encoded well-formed instruction gives it back, with every operand at every value its encoding admits. -/
def Obligations.DecodeOfEncodeIsTheInstruction : Prop :=
  ∀ i : Instr, WellFormed i → decode (encode i) = some i

/-- Each code has one meaning: what decodes is well formed and encodes to the code it came from. -/
def Obligations.EncodeOfDecodeIsTheCode : Prop :=
  ∀ (c : Code) (i : Instr), decode c = some i → WellFormed i ∧ encode i = c

/-- Match and mask (30_encoding R82): the row a header selects is the one whose `OP` it holds; `match` and `mask` of every
row are those of the rule's formula; and a header of that row is legal exactly when it matches under the mask and each used
`P` or `Q` holds a legal value. -/
def Obligations.HeaderIsLegalIffItMatchesItsRow : Prop :=
  (∀ (b : Byte) (o : Op), opOf b = some o ↔ o.code = b) ∧
  (∀ o : Op, o.row.matched = o.code.setWidth 32 <<< 24 ∧
    o.row.mask = 0xFF7F0000#32 ||| (if o.row.usesF then 0 else 0x00800000#32) ||| (if o.row.usesP then 0 else 0x0000FF00#32) |||
      (if o.row.q = .unused then 0x000000FF#32 else 0)) ∧
  ∀ (o : Op) (h : Word), (hdrOp h = o.code ∧ headerOk o h = true) ↔
    (h &&& o.row.mask = o.row.matched ∧ (o.row.usesP = true → 1 ≤ (hdrP h).toNat) ∧
      (o.row.q = .resultWidth → 1 ≤ (hdrQ h).toNat) ∧
      (o.row.q = .elemWidth → (hdrQ h).toNat = 8 ∨ (hdrQ h).toNat = 16 ∨ (hdrQ h).toNat = 32 ∨ (hdrQ h).toNat = 64))

/-- Illegal opcodes (30_encoding R83): a frame is illegal exactly for the `OP` values 0x00, 0x05 to 0x0F, 0x18 to 0x1F and
0x28 to 0xFF, and then the command raises `ILLEGAL_OPCODE` and has no effect. -/
def Obligations.UnassignedOpcodesAreIllegal : Prop :=
  (∀ f : CmdFrame, decodeCmd f = .error .illegalOpcode ↔
    ((hdrOp f.header).toNat = 0 ∨ (5 ≤ (hdrOp f.header).toNat ∧ (hdrOp f.header).toNat ≤ 0x0F) ∨
      (0x18 ≤ (hdrOp f.header).toNat ∧ (hdrOp f.header).toNat ≤ 0x1F) ∨ 0x28 ≤ (hdrOp f.header).toNat)) ∧
  ∀ (s : State) (f : CmdFrame) (rest : List HostInput), s.wireIn = [] → s.cmdIn = .frame f :: rest →
    faultV s.fault = false → decodeCmd f = .error .illegalOpcode →
    step s = .next (({ s with cmdIn := rest } : State).faulted (hdrOp f.header) .illegalOpcode)

/-- The order of the checks (60_exceptions R223): an illegal opcode before everything, then the header, then the frame
length, and after those only a reserved field of an operand word; a command's own checks come when all of these pass, the
list length before the values. -/
def Obligations.FaultsAreReportedInPriorityOrder : Prop :=
  (∀ f : CmdFrame, opOf (hdrOp f.header) = none → decodeCmd f = .error .illegalOpcode) ∧
  (∀ (f : CmdFrame) (o : Op), opOf (hdrOp f.header) = some o → headerOk o f.header = false →
    decodeCmd f = .error .reservedField) ∧
  (∀ (f : CmdFrame) (o : Op), opOf (hdrOp f.header) = some o → headerOk o f.header = true →
    frameLen o f ≠ some f.length → decodeCmd f = .error .framing) ∧
  (∀ (f : CmdFrame) (o : Op) (c : Cause), opOf (hdrOp f.header) = some o → headerOk o f.header = true →
    frameLen o f = some f.length → decodeCmd f = .error c → c = .reservedField) ∧
  ∀ (s : State) (vs : List Word), faultV s.fault = false → vs.length ≠ s.cfg.n →
    exec (.ddIntensityPd vs) s = .next (s.faulted 0x24 .intensityLength)

/-- The frame length each format requires (30_encoding R79): a frame that decodes to an instruction has exactly its length. -/
def Obligations.AcceptedFramesHaveTheirLength : Prop :=
  ∀ (f : CmdFrame) (i : Instr), decodeCmd f = .ok i →
    f.length =
      (match i with
       | .brSet _ n _ _ _ => 3 + (n.toNat + 31) / 32
       | .brFlip n _ _ _ => 3 + (n.toNat + 31) / 32
       | .brExtract n _ _ _ => 2 + (n.toNat + 31) / 32
       | .brReverse n _ => 1 + (n.toNat + 31) / 32
       | .fbWrite e _ _ _ ht _ => 5 + (max ht.toInt 0).toNat * ((e.bits + 31) / 32)
       | .fbClear _ _ _ _ => 5
       | .fbTurnDot _ _ _ => 3
       | .fbExtH _ _ _ => 3
       | .fbExtV _ _ _ => 3
       | .ddBcast _ _ => 2
       | .ddIntensity _ => 2
       | .ddIntensityPd vs => 2 + vs.length
       | _ => 1)

/-- Every wire address of the map decodes, and no other (30_encoding R87, 20_memory R61). -/
def Obligations.OnlyMappedWireAddressesDecode : Prop :=
  ∀ f : Frame, decodeWire f = none ↔
    ((frameAddr f).toNat = 13 ∨ (frameAddr f).toNat = 14 ∨ 16 ≤ (frameAddr f).toNat)

/-- Assembly lines (30_encoding R89): every well-formed command has a line, and its line assembles to that command; a wire frame
is no command and has none. Lines are the model's own data (log 20). -/
def Obligations.AssemblingALineGivesItsCommand : Prop :=
  ∀ i : Instr, WellFormed i →
    ((∃ f, encode i = .cmd f) → ∃ l, disassemble i = some l ∧ assemble l = some i) ∧
    ((∃ f, encode i = .wire f) → disassemble i = none)

/-- The eight pseudo-instructions and their expansions (30_encoding R90). -/
def Obligations.PseudoInstructionsExpand : Prop :=
  (∀ x y : Word, assemble (.pseudo .setDot [sNum x, sNum y]) = some (.fbTurnDot true x y)) ∧
  (∀ x y : Word, assemble (.pseudo .clrDot [sNum x, sNum y]) = some (.fbTurnDot false x y)) ∧
  assemble (.pseudo .on []) = some (.ddShutdown false) ∧
  assemble (.pseudo .off []) = some (.ddShutdown true) ∧
  assemble (.pseudo .nop []) = some (.ddBcast 0 0) ∧
  (∀ (k : Nat) (d : Byte), k ≤ 7 → assemble (.pseudo .digit [.num k, uNum d]) = some (.ddBcast (BitVec.ofNat 8 (k + 1)) d)) ∧
  (∀ d : Byte, assemble (.pseudo .decode [uNum d]) = some (.ddBcast 9 d)) ∧
  (∀ d : Byte, assemble (.pseudo .scanLimit [uNum d]) = some (.ddBcast 11 d))

/-! ### Bit-range unit -/

/-- `BR.SET` (40_bitrange R102): with `START < N` the result is `V` with the bits `START .. START+LEN-1` below `N` set to
`v`, in `cw(N)` words, and nothing but the response changes; with `START >= N` it raises `BR_START`. -/
def Obligations.BrSetEditsTheRange : Prop :=
  ∀ (v : Bool) (n : Byte) (start len : Word) (val : Nat) (s : State), WellFormed (.brSet v n start len val) →
    (start.toNat < n.toNat → ∃ ws : List Word, exec (.brSet v n start len val) s = .next (s.answered ws) ∧
      ws.length = (n.toNat + 31) / 32 ∧ wordsVal ws < 2 ^ n.toNat ∧
      ∀ i, i < n.toNat → (wordsVal ws).testBit i =
        if start.toNat ≤ i ∧ i < start.toNat + len.toNat then v else val.testBit i) ∧
    (n.toNat ≤ start.toNat → faultV s.fault = false →
      exec (.brSet v n start len val) s = .next (s.faulted 0x01 .brStart))

/-- `BR.FLIP` (40_bitrange R105): with `START < N` the result is `V` with the bits of the range inverted; with `START >= N`
it raises `BR_START`. -/
def Obligations.BrFlipInvertsTheRange : Prop :=
  ∀ (n : Byte) (start len : Word) (val : Nat) (s : State), WellFormed (.brFlip n start len val) →
    (start.toNat < n.toNat → ∃ ws : List Word, exec (.brFlip n start len val) s = .next (s.answered ws) ∧
      ws.length = (n.toNat + 31) / 32 ∧ wordsVal ws < 2 ^ n.toNat ∧
      ∀ i, i < n.toNat → (wordsVal ws).testBit i =
        if start.toNat ≤ i ∧ i < start.toNat + len.toNat then !val.testBit i else val.testBit i) ∧
    (n.toNat ≤ start.toNat → faultV s.fault = false →
      exec (.brFlip n start len val) s = .next (s.faulted 0x02 .brStart))

/-- `BR.EXTRACT` (40_bitrange R108): with `START < N`, bit `i` of the `M`-bit result is bit `START + i` of `V` where that is
below `N`, and 0 elsewhere; with `START >= N` it raises `BR_START`. -/
def Obligations.BrExtractCopiesTheSubRange : Prop :=
  ∀ (n m : Byte) (start : Word) (val : Nat) (s : State), WellFormed (.brExtract n m start val) →
    (start.toNat < n.toNat → ∃ ws : List Word, exec (.brExtract n m start val) s = .next (s.answered ws) ∧
      ws.length = (m.toNat + 31) / 32 ∧ wordsVal ws < 2 ^ m.toNat ∧
      ∀ i, i < m.toNat → (wordsVal ws).testBit i =
        if start.toNat + i < n.toNat then val.testBit (start.toNat + i) else false) ∧
    (n.toNat ≤ start.toNat → faultV s.fault = false →
      exec (.brExtract n m start val) s = .next (s.faulted 0x03 .brStart))

/-- `BR.REVERSE` (40_bitrange R111): bit `i` of the result is bit `N - 1 - i` of `V`; it has no start operand and raises
nothing. -/
def Obligations.BrReverseReversesTheBits : Prop :=
  ∀ (n : Byte) (val : Nat) (s : State), WellFormed (.brReverse n val) →
    ∃ ws : List Word, exec (.brReverse n val) s = .next (s.answered ws) ∧ ws.length = (n.toNat + 31) / 32 ∧
      wordsVal ws < 2 ^ n.toNat ∧ ∀ i, i < n.toNat → (wordsVal ws).testBit i = val.testBit (n.toNat - 1 - i)

/-- Flipping the same range twice, and reversing twice, returns the original value (40_bitrange R106, R112): the result words
of the first command, given to the second, come back as the operand's words. -/
def Obligations.FlipAndReverseUndoThemselves : Prop :=
  (∀ (n : Byte) (start len : Word) (val : Nat) (s : State), WellFormed (.brFlip n start len val) → start.toNat < n.toNat →
    ∃ ws : List Word, exec (.brFlip n start len val) s = .next (s.answered ws) ∧
      ∀ u : State, exec (.brFlip n start len (wordsVal ws)) u = .next (u.answered (wordsOf (cw n.toNat) val))) ∧
  ∀ (n : Byte) (val : Nat) (s : State), WellFormed (.brReverse n val) →
    ∃ ws : List Word, exec (.brReverse n val) s = .next (s.answered ws) ∧
      ∀ u : State, exec (.brReverse n (wordsVal ws)) u = .next (u.answered (wordsOf (cw n.toNat) val))

/-! ### Frame buffer -/

/-- Geometric tolerance (41_framebuffer R130): whatever its coordinates, width, height or data, an `FB.*` command is answered
`OK` and records no fault. Beyond R130: it writes neither `BUS_HIST` nor `DEVREG` (the opening of 41_framebuffer) nor the
configuration (10_state R20) nor a bus pin; that a drawing command leaves `DIN` is the model's
reading (log 4). -/
def Obligations.NoFrameBufferCommandFaults : Prop :=
  ∀ (i : Instr) (s : State),
    ((∃ e x y wd ht rows, i = .fbWrite e x y wd ht rows) ∨ (∃ x y wd ht, i = .fbClear x y wd ht) ∨ i = .fbClearAll ∨
      (∃ on x y, i = .fbTurnDot on x y) ∨ (∃ rev x y, i = .fbExtH rev x y) ∨ (∃ rev x y, i = .fbExtV rev x y) ∨
      i = .fbWidth ∨ i = .fbHeight) →
    ∃ t ws, exec i s = .next t ∧ t.resp = s.resp ++ [.ok ws] ∧ t.fault = s.fault ∧ t.busHist = s.busHist ∧
      t.devreg = s.devreg ∧ t.csN = s.csN ∧ t.clk = s.clk ∧ t.din = s.din ∧ t.cfg = s.cfg

/-- `FB.WRITE` (41_framebuffer R131): with `w = min(WD, S)`, every pixel `(X, Y)` of the buffer inside the rectangle holds bit
`X0 + w - 1 - X` of source row `Y - Y0`, every other pixel is unchanged, and nothing else changes but the response
(`DIN` too: log 4). -/
def Obligations.FbWriteOverwritesItsClippedRectangle : Prop :=
  ∀ (e : ElemWidth) (x y wd ht : Word) (rows : List Nat) (s : State), WellFormed (.fbWrite e x y wd ht rows) →
    Memory.wf s.cfg s.fb = true →
    ∃ g : List Nat, exec (.fbWrite e x y wd ht rows) s = .next (s.drew g) ∧ Memory.wf s.cfg g = true ∧
      ∀ X Y : Int, 0 ≤ X → X < s.cfg.width → 0 ≤ Y → Y < s.cfg.height →
        pixOr s.cfg g X Y =
          if x.toInt ≤ X ∧ X < x.toInt + min wd.toInt e.bits ∧ y.toInt ≤ Y ∧ Y < y.toInt + ht.toInt then
            (rows.getD (Y - y.toInt).toNat 0).testBit (x.toInt + min wd.toInt e.bits - 1 - X).toNat
          else pixOr s.cfg s.fb X Y

/-- The row-level form of a write (41_framebuffer R132), equal to it pixel for pixel: each affected row keeps its bits outside
the mask of the visible columns and takes the source row, shifted by `WIDTH - X0 - w`, inside it; every other row is
unchanged. The affected rows are those of the rectangle when it passes the no-op test of R131. Nothing else changes but the
response (`DIN` too: log 4). -/
def Obligations.FbWriteHasItsRowLevelForm : Prop :=
  ∀ (e : ElemWidth) (x y wd ht : Word) (rows : List Nat) (s : State), WellFormed (.fbWrite e x y wd ht rows) →
    Memory.wf s.cfg s.fb = true →
    ∃ g : List Nat, exec (.fbWrite e x y wd ht rows) s = .next (s.drew g) ∧ g.length = s.fb.length ∧
      ∀ Y : Nat, Y < s.cfg.height →
        let w : Int := min wd.toInt e.bits
        let lo : Int := max x.toInt 0
        let hi : Int := min (x.toInt + w) s.cfg.width
        let sh : Int := s.cfg.width - x.toInt - w
        let old : Nat := s.fb.getD Y 0
        g.getD Y 0 =
          if ¬ ((s.cfg.width : Int) ≤ x.toInt ∨ (s.cfg.height : Int) ≤ y.toInt ∨ x.toInt + w ≤ 0 ∨ y.toInt + ht.toInt ≤ 0) ∧
              y.toInt ≤ Y ∧ (Y : Int) < y.toInt + ht.toInt then
            let mrow : Nat := maskN s.cfg.width (s.cfg.width - hi).toNat (hi - lo).toNat
            let src : Nat := rows.getD (Y - y.toInt).toNat 0 % 2 ^ w.toNat
            (old ^^^ (old &&& mrow)) ||| ((if 0 ≤ sh then src <<< sh.toNat else src >>> (-sh).toNat) &&& mrow)
          else old

/-- `FB.CLEAR` (41_framebuffer R134): every pixel of the rectangle is 0, every other pixel of the buffer is unchanged, and
nothing else changes but the response (`DIN` too: log 4). -/
def Obligations.FbClearZeroesItsClippedRectangle : Prop :=
  ∀ (x y wd ht : Word) (s : State), Memory.wf s.cfg s.fb = true →
    ∃ g : List Nat, exec (.fbClear x y wd ht) s = .next (s.drew g) ∧ Memory.wf s.cfg g = true ∧
      ∀ X Y : Int, pixOr s.cfg g X Y =
        if x.toInt ≤ X ∧ X < x.toInt + wd.toInt ∧ y.toInt ≤ Y ∧ Y < y.toInt + ht.toInt then false
        else pixOr s.cfg s.fb X Y

/-- `FB.CLEARALL` (41_framebuffer R136): every row is 0 afterwards, whatever it was, and nothing else changes but the
response (`DIN` too: log 4). -/
def Obligations.FbClearAllZeroesEveryRow : Prop :=
  ∀ s : State, ∃ g : List Nat, exec .fbClearAll s = .next (s.drew g) ∧ g.length = s.cfg.height ∧
    Memory.wf s.cfg g = true ∧ (∀ Y : Nat, Y < s.cfg.height → g[Y]? = some 0) ∧ ∀ X Y : Int, pixOr s.cfg g X Y = false

/-- `FB.TURNDOT` (41_framebuffer R137, 10_state R24): inside the buffer, bit `WIDTH - X - 1` of row `Y` becomes `on`, every
other bit of every row is unchanged; outside the buffer no row changes; nothing else changes but the response
(`DIN` too: log 4). -/
def Obligations.FbTurnDotWritesOnePixel : Prop :=
  ∀ (on : Bool) (x y : Word) (s : State), Memory.wf s.cfg s.fb = true →
    ∃ g : List Nat, exec (.fbTurnDot on x y) s = .next (s.drew g) ∧ Memory.wf s.cfg g = true ∧
      (0 ≤ x.toInt → x.toInt < s.cfg.width → 0 ≤ y.toInt → y.toInt < s.cfg.height →
        ∀ (Y j : Nat), (g.getD Y 0).testBit j =
          if Y = y.toInt.toNat ∧ j = s.cfg.width - x.toInt.toNat - 1 then on else (s.fb.getD Y 0).testBit j) ∧
      (x.toInt < 0 ∨ s.cfg.width ≤ x.toInt ∨ y.toInt < 0 ∨ s.cfg.height ≤ y.toInt → g = s.fb)

/-- `FB.EXTH` (41_framebuffer R140): one result word, the byte whose bit 7 is column `X0` and bit 0 column `X0 + 7` of row
`Y0`, reversed when asked, zero where the position is outside the buffer; 0 when no column or the row is outside; nothing
else changes. -/
def Obligations.FbExtHReturnsEightColumns : Prop :=
  ∀ (rev : Bool) (x y : Word) (s : State), ∃ b : Byte,
    exec (.fbExtH rev x y) s = .next (s.answered [b.setWidth 32]) ∧
    (∀ i : Nat, i < 8 → b.getLsbD i =
      (let X : Int := if rev then x.toInt + i else x.toInt + 7 - i
       if 0 ≤ X ∧ X < s.cfg.width ∧ 0 ≤ y.toInt ∧ y.toInt < s.cfg.height then
         (s.fb.getD y.toInt.toNat 0).testBit (s.cfg.width - X.toNat - 1)
       else false)) ∧
    (y.toInt < 0 ∨ s.cfg.height ≤ y.toInt ∨ s.cfg.width ≤ x.toInt ∨ x.toInt ≤ -8 → b = 0)

/-- `FB.EXTV` (41_framebuffer R141): one result word, the byte whose bit 7 is row `Y0` and bit 0 row `Y0 + 7` of column `X0`,
reversed when asked, zero where the position is outside the buffer; nothing else changes. -/
def Obligations.FbExtVReturnsEightRows : Prop :=
  ∀ (rev : Bool) (x y : Word) (s : State), ∃ b : Byte,
    exec (.fbExtV rev x y) s = .next (s.answered [b.setWidth 32]) ∧
    (∀ i : Nat, i < 8 → b.getLsbD i =
      (let Y : Int := if rev then y.toInt + i else y.toInt + 7 - i
       if 0 ≤ x.toInt ∧ x.toInt < s.cfg.width ∧ 0 ≤ Y ∧ Y < s.cfg.height then
         (s.fb.getD Y.toNat 0).testBit (s.cfg.width - x.toInt.toNat - 1)
       else false)) ∧
    (x.toInt < 0 ∨ s.cfg.width ≤ x.toInt ∨ s.cfg.height ≤ y.toInt ∨ y.toInt ≤ -8 → b = 0)

/-- `FB.WIDTH` and `FB.HEIGHT` (41_framebuffer R143, R144): one result word, the configured number; nothing else changes. -/
def Obligations.AccessorsReturnTheDimensions : Prop :=
  ∀ s : State, s.cfg.legal = true →
    (∃ w : Word, exec .fbWidth s = .next (s.answered [w]) ∧ w.toNat = s.cfg.width) ∧
    (∃ h : Word, exec .fbHeight s = .next (s.answered [h]) ∧ h.toNat = s.cfg.height)

/-- Repeating any one drawing command leaves `FB` as the first left it (20_memory R60), and everything else too but for one more
`OK` response (`DIN` too: log 4). -/
def Obligations.RepeatingADrawingCommandChangesNothing : Prop :=
  ∀ (i : Instr) (s : State), Memory.wf s.cfg s.fb = true →
    ((∃ e x y wd ht rows, i = .fbWrite e x y wd ht rows) ∨ (∃ x y wd ht, i = .fbClear x y wd ht) ∨ i = .fbClearAll ∨
      (∃ on x y, i = .fbTurnDot on x y)) →
    ∃ t, exec i s = .next t ∧ exec i t = .next (t.answered [])

/-- A write inside the buffer reads back (41_framebuffer R145): an eight-column write is returned row by row by `FB.EXTH`, a
one-column write of eight rows by `FB.EXTV`, and an extraction that touches only a cleared rectangle, of either kind and
reversed or not, returns 0. -/
def Obligations.WrittenPatternsReadBack : Prop :=
  (∀ (e : ElemWidth) (x y ht : Word) (rows : List Nat) (s : State), WellFormed (.fbWrite e x y 8 ht rows) →
    Memory.wf s.cfg s.fb = true → 0 ≤ x.toInt → x.toInt + 8 ≤ s.cfg.width → 0 ≤ y.toInt → y.toInt + ht.toInt ≤ s.cfg.height →
    ∃ t, exec (.fbWrite e x y 8 ht rows) s = .next t ∧
      ∀ (r : Nat) (yr : Word), r < rows.length → yr.toInt = y.toInt + r →
        exec (.fbExtH false x yr) t = .next (t.answered [BitVec.ofNat 32 (rows.getD r 0 % 256)])) ∧
  (∀ (e : ElemWidth) (x y : Word) (rows : List Nat) (s : State), WellFormed (.fbWrite e x y 1 8 rows) →
    Memory.wf s.cfg s.fb = true → 0 ≤ x.toInt → x.toInt + 1 ≤ s.cfg.width → 0 ≤ y.toInt → y.toInt + 8 ≤ s.cfg.height →
    ∃ (t : State) (b : Byte), exec (.fbWrite e x y 1 8 rows) s = .next t ∧
      exec (.fbExtV false x y) t = .next (t.answered [b.setWidth 32]) ∧
      ∀ r : Nat, r < 8 → b.getLsbD (7 - r) = (rows.getD r 0).testBit 0) ∧
  ∀ (x y wd ht X Y : Word) (s : State), Memory.wf s.cfg s.fb = true → x.toInt ≤ X.toInt → y.toInt ≤ Y.toInt →
    ∃ t, exec (.fbClear x y wd ht) s = .next t ∧
      (X.toInt + 8 ≤ x.toInt + wd.toInt → Y.toInt < y.toInt + ht.toInt →
        ∀ rev : Bool, exec (.fbExtH rev X Y) t = .next (t.answered [0])) ∧
      (X.toInt < x.toInt + wd.toInt → Y.toInt + 8 ≤ y.toInt + ht.toInt →
        ∀ rev : Bool, exec (.fbExtV rev X Y) t = .next (t.answered [0]))

/-! ### Display driver -/

/-- `DD.INIT` (42_display_driver R173, 70_reset_and_hazards R253): five broadcasts in order; afterwards every device is in
shutdown, test off, intensity 15, scan-limit 7, decode-mode 0, and its digit registers are as before. -/
def Obligations.DdInitForcesTheKnownState : Prop :=
  ∀ s : State, s.devreg.length = s.cfg.n →
    ∃ t, exec .ddInit s = .next t ∧
      s.Sent t [List.replicate s.cfg.n 0x0C00#16, List.replicate s.cfg.n 0x0F00#16, List.replicate s.cfg.n 0x0A0F#16,
        List.replicate s.cfg.n 0x0B07#16, List.replicate s.cfg.n 0x0900#16] ∧
      ∀ k : Nat, k < s.cfg.n →
        t.devRead k .shutdown = some 0x00 ∧ t.devRead k .displayTest = some 0x00 ∧ t.devRead k .intensity = some 0x0F ∧
        t.devRead k .scanLimit = some 0x07 ∧ t.devRead k .decodeMode = some 0x00 ∧
        ∀ r : DevReg, isRow r = true → t.devRead k r = s.devRead k r

/-- `DD.BCAST` (42_display_driver R172, R171): any address and data go out as one transaction of `n` equal frames; an assigned
register of every device then holds the data and its other registers are as before, and address 0 changes no register.
Nothing is said of the registers after an unassigned address (42_display_driver R193). -/
def Obligations.DdBcastWritesOneRegisterEverywhere : Prop :=
  ∀ (addr data : Byte) (s : State), s.devreg.length = s.cfg.n →
    ∃ t, exec (.ddBcast addr data) s = .next t ∧ s.Sent t [List.replicate s.cfg.n (addr ++ data : BitVec 16)] ∧
      ∀ k : Nat, k < s.cfg.n →
        (addr = 0 → ∀ r, t.devRead k r = s.devRead k r) ∧
        ∀ r0 : DevReg, regAddr r0 = addr.toNat →
          ∀ r, t.devRead k r = if r = r0 then some data else s.devRead k r

/-- `DD.SEND` (42_display_driver R174 to R177): eight transactions, `r = 0 .. 7`, of one frame per device in descriptor order;
the frame for device `k` has address `8 - r` and the byte the transform table gives for its rotation and mirror, computed
from `FB`; each device then holds that byte in that register, and its control registers are as before. -/
def Obligations.DdSendTransmitsEveryCell : Prop :=
  ∀ s : State, s.devreg.length = s.cfg.n →
    ∃ t ts, exec .ddSend s = .next t ∧ s.Sent t ts ∧ ts.length = 8 ∧
      (∀ r : Nat, r < 8 → ∃ tx, ts[r]? = some tx ∧ tx.length = s.cfg.n ∧
        ∀ (k : Nat) (d : Descriptor), s.cfg.dev[k]? = some d →
          ∃ b : Byte, b = (match d.rot with
              | .deg0 => extH s.cfg s.fb d.tx.toInt (d.ty.toInt + r) d.mirror
              | .deg180 => extH s.cfg s.fb d.tx.toInt (d.ty.toInt + 7 - r) (!d.mirror)
              | .cw90 => extV s.cfg s.fb (d.tx.toInt + r) d.ty.toInt (!d.mirror)
              | .ccw90 => extV s.cfg s.fb (d.tx.toInt + 7 - r) d.ty.toInt d.mirror) ∧
            tx[k]? = some (BitVec.ofNat 8 (8 - r) ++ b : BitVec 16) ∧
            ∀ reg : DevReg, regAddr reg = 8 - r → t.devRead k reg = some b) ∧
      ∀ (k : Nat) (reg : DevReg), k < s.cfg.n → isRow reg = false → t.devRead k reg = s.devRead k reg

/-- Where a cell pixel goes on the wire (42_display_driver R179): for device `k` and the pixel at cell offset `(cx, cy)`, the
frame of address `A` for that device carries it in data bit `B`. -/
def Obligations.CellPixelsReachTheirWireBits : Prop :=
  ∀ (s : State) (k : Nat) (d : Descriptor) (cx cy : Nat), s.cfg.dev[k]? = some d → cx < 8 → cy < 8 →
    ∃ t tx f, exec .ddSend s = .next t ∧ tx ∈ t.busHist.drop s.busHist.length ∧ tx[k]? = some f ∧
      (frameAddr f).toNat =
        (match d.rot with
         | .deg0 => 8 - cy
         | .deg180 => 1 + cy
         | .cw90 => 8 - cx
         | .ccw90 => 1 + cx) ∧
      f.getLsbD
        (match d.rot, d.mirror with
         | .deg0, false => 7 - cx
         | .deg0, true => cx
         | .deg180, false => cx
         | .deg180, true => 7 - cx
         | .cw90, false => cy
         | .cw90, true => 7 - cy
         | .ccw90, false => 7 - cy
         | .ccw90, true => cy) = pixOr s.cfg s.fb (d.tx.toInt + cx) (d.ty.toInt + cy)

/-- `DD.SEND` twice in succession, with no drawing between, appends the same eight transactions twice (42_display_driver
R180, 20_memory R60). -/
def Obligations.SendingTwiceSendsTheSame : Prop :=
  ∀ s : State, ∃ t u, exec .ddSend s = .next t ∧ exec .ddSend t = .next u ∧ t.fb = s.fb ∧
    (t.busHist.drop s.busHist.length).length = 8 ∧
    u.busHist = s.busHist ++ t.busHist.drop s.busHist.length ++ t.busHist.drop s.busHist.length

/-- `DD.INTENSITY` (42_display_driver R181): a value up to 15 is broadcast to register 10 of every device; above 15 it raises
`INTENSITY_VALUE` and sends nothing. -/
def Obligations.DdIntensitySetsEveryDevice : Prop :=
  ∀ (v : Word) (s : State),
    (v.toNat ≤ 15 → s.devreg.length = s.cfg.n →
      ∃ t, exec (.ddIntensity v) s = .next t ∧ s.Sent t [List.replicate s.cfg.n (0x0A#8 ++ BitVec.ofNat 8 v.toNat : BitVec 16)] ∧
        ∀ k : Nat, k < s.cfg.n → ∀ r, t.devRead k r = if r = .intensity then some (BitVec.ofNat 8 v.toNat) else s.devRead k r) ∧
    (15 < v.toNat → faultV s.fault = false → exec (.ddIntensity v) s = .next (s.faulted 0x23 .intensityValue))

/-- `DD.INTENSITYPD` (42_display_driver R182): `n` values up to 15 go out in one transaction, value `j` to device `j`; a list of
another length raises `INTENSITY_LENGTH`, a value above 15 in a list of `n` raises `INTENSITY_VALUE`, and neither sends
anything. -/
def Obligations.DdIntensityPdSetsEachDevice : Prop :=
  ∀ (vs : List Word) (s : State),
    (vs.length = s.cfg.n → (∀ v ∈ vs, v.toNat ≤ 15) → s.devreg.length = s.cfg.n →
      ∃ t, exec (.ddIntensityPd vs) s = .next t ∧
        s.Sent t [vs.map (fun v => (0x0A#8 ++ BitVec.ofNat 8 v.toNat : BitVec 16))] ∧
        ∀ (k : Nat) (v : Word), vs[k]? = some v →
          ∀ r, t.devRead k r = if r = .intensity then some (BitVec.ofNat 8 v.toNat) else s.devRead k r) ∧
    (vs.length ≠ s.cfg.n → faultV s.fault = false →
      exec (.ddIntensityPd vs) s = .next (s.faulted 0x24 .intensityLength)) ∧
    (vs.length = s.cfg.n → (∃ v ∈ vs, 15 < v.toNat) → faultV s.fault = false →
      exec (.ddIntensityPd vs) s = .next (s.faulted 0x24 .intensityValue))

/-- `DD.SHUTDOWN` (42_display_driver R183): register 12 of every device takes 0x00 for on and 0x01 for off; nothing else of a
device changes. -/
def Obligations.DdShutdownBroadcastsTheMode : Prop :=
  ∀ (on : Bool) (s : State), s.devreg.length = s.cfg.n →
    ∃ t, exec (.ddShutdown on) s = .next t ∧
      s.Sent t [List.replicate s.cfg.n (if on then 0x0C00#16 else 0x0C01#16)] ∧
      ∀ k : Nat, k < s.cfg.n → ∀ r,
        t.devRead k r = if r = .shutdown then some (if on then 0x00 else 0x01) else s.devRead k r

/-- `DD.TEST` (42_display_driver R184): register 15 of every device takes 0x01 for on and 0x00 for off; nothing else of a
device changes. -/
def Obligations.DdTestBroadcastsTheMode : Prop :=
  ∀ (on : Bool) (s : State), s.devreg.length = s.cfg.n →
    ∃ t, exec (.ddTest on) s = .next t ∧
      s.Sent t [List.replicate s.cfg.n (if on then 0x0F01#16 else 0x0F00#16)] ∧
      ∀ k : Nat, k < s.cfg.n → ∀ r,
        t.devRead k r = if r = .displayTest then some (if on then 0x01 else 0x00) else s.devRead k r

/-- `DD.CLEAR` (42_display_driver R185): eight broadcasts of 0 to addresses 1 to 8 in ascending order; every digit register is
0 afterwards, the control registers are as before, and `FB` is unchanged. -/
def Obligations.DdClearZeroesTheDigits : Prop :=
  ∀ s : State, s.devreg.length = s.cfg.n →
    ∃ t, exec .ddClear s = .next t ∧
      s.Sent t ([0x0100#16, 0x0200#16, 0x0300#16, 0x0400#16, 0x0500#16, 0x0600#16, 0x0700#16, 0x0800#16].map
        (List.replicate s.cfg.n)) ∧
      ∀ k : Nat, k < s.cfg.n → ∀ r, t.devRead k r = if isRow r then some 0x00 else s.devRead k r

/-! ### Devices and the wire -/

/-- The device latch rule (42_display_driver R192) for one transaction of `n` frames: the device keeps its registers for
address 0 and stores the data at an assigned address, whatever the other devices' frames are. Nothing is said after an
unassigned address. -/
def Obligations.EachDeviceLatchesItsOwnFrame : Prop :=
  ∀ (s : State) (fs : Transaction) (k : Nat) (f : Frame), fs.length = s.cfg.n → s.devreg.length = s.cfg.n →
    fs[k]? = some f →
    (frameAddr f = 0 → ∀ r, (s.emit fs).devRead k r = s.devRead k r) ∧
    ∀ r0 : DevReg, regAddr r0 = (frameAddr f).toNat →
      ∀ r, (s.emit fs).devRead k r = if r = r0 then some (frameData f) else s.devRead k r

/-- The devices see transactions in order (20_memory R64): after any number of full transactions whose frames for device `k`
have mapped addresses, a register holds the data of the last frame sent to it, or what it held before if there was none. -/
def Obligations.RegistersHoldTheLastFrameSent : Prop :=
  ∀ (s : State) (ts : List Transaction) (k : Nat) (r : DevReg), k < s.cfg.n → s.devreg.length = s.cfg.n →
    (∀ x ∈ ts, x.length = s.cfg.n) → (∀ x ∈ ts, ∀ f, x[k]? = some f → decodeWire f ≠ none) →
    (s.emitAll ts).devRead k r =
      (((ts.filterMap (fun x => x[k]?)).filter (fun f => (frameAddr f).toNat == regAddr r)).getLast?.map frameData).or
        (s.devRead k r)

/-- What a device does with each wire frame it latches (42_display_driver R192, 30_encoding R87): the register the address
names takes the data, and nothing else changes in any device or in the block; the no-op frame changes nothing at all. The
device is the one the model's own `latchDev` names (log 10). -/
def Obligations.WireFramesWriteTheirRegister : Prop :=
  (∀ (data : Byte) (s : State), exec (.wireNoop data) s = .next s) ∧
  ∀ p ∈ [(Instr.wireRow0, DevReg.row0), (Instr.wireRow1, DevReg.row1), (Instr.wireRow2, DevReg.row2),
      (Instr.wireRow3, DevReg.row3), (Instr.wireRow4, DevReg.row4), (Instr.wireRow5, DevReg.row5),
      (Instr.wireRow6, DevReg.row6), (Instr.wireRow7, DevReg.row7), (Instr.wireDecode, DevReg.decodeMode),
      (Instr.wireIntensity, DevReg.intensity), (Instr.wireScanLimit, DevReg.scanLimit),
      (Instr.wireShutdown, DevReg.shutdown), (Instr.wireTest, DevReg.displayTest)],
    ∀ (data : Byte) (s : State), s.latchDev < s.devreg.length →
      ∃ t, exec (p.1 data) s = .next t ∧ t = { s with devreg := t.devreg } ∧ t.devreg.length = s.devreg.length ∧
        ∀ (k : Nat) (r : DevReg),
          t.devRead k r = if k = s.latchDev ∧ r = p.2 then some data else s.devRead k r

/-- The two ways a device's action is written agree: latching a frame at the end of a transaction is running it as a wire
instruction at that device. Both ways are the model's own (log 10). -/
def Obligations.LatchingIsRunningTheWireFrame : Prop :=
  ∀ (s : State) (k : Nat) (f : Frame) (i : Instr), decodeWire f = some i →
    exec i { s with latchDev := k } = .next { s.latch k f with latchDev := k }

/-- The pin-level form delivers a transaction (42_display_driver R190): after chip-select low, the bits of `k` frames most
significant first, and chip-select high, a chain of `k` shift registers holds the first frame in the farthest device and the
last in the nearest, that is what the devices latch, and the bus is idle. The chain `Bus` is the model's own form (log 18). -/
def Obligations.ShiftingDeliversEachFrameToItsDevice : Prop :=
  ∀ (b : Bus) (fs : Transaction), b.shift.length = fs.length → b.clk = false →
    (b.run (wireForm fs)).shift = fs ∧ (b.run (wireForm fs)).latched = b.latched ++ [fs] ∧
    (b.run (wireForm fs)).csN = true ∧ (b.run (wireForm fs)).clk = false

/-- Everything the block has done on its pins since reset, run through a chain of `n` devices, makes them latch exactly the
transactions of `BUS_HIST` in order, and leaves the bus idle (10_state R34, 20_memory R64). The chain `Bus` is the model's own
form (log 18). -/
def Obligations.PinsDeliverTheWholeBusHistory : Prop :=
  ∀ (s : State) (b : Bus), s.Inv → b.shift.length = s.cfg.n → b.csN = true → b.clk = false →
    (b.run s.waveform).latched = b.latched ++ s.busHist ∧ (b.run s.waveform).csN = true ∧ (b.run s.waveform).clk = false

/-- A transaction is 16 clock periods per frame, so `DD.SEND` and `DD.CLEAR` add `128 * n` periods, `DD.INIT` `80 * n`, and a
command of one transaction `16 * n`: `DD.BCAST`, `DD.SHUTDOWN`, `DD.TEST`, `DD.INTENSITY` up to 15 and `DD.INTENSITYPD` with
`n` values up to 15 (70_reset_and_hazards R264). -/
def Obligations.CommandsTakeTheirClockPeriods : Prop :=
  (∀ fs : Transaction, clockPeriods (wireForm fs) = 16 * fs.length) ∧
  ∀ s : State,
    (∃ t, exec .ddSend s = .next t ∧ clockPeriods t.waveform = clockPeriods s.waveform + 128 * s.cfg.n) ∧
    (∃ t, exec .ddClear s = .next t ∧ clockPeriods t.waveform = clockPeriods s.waveform + 128 * s.cfg.n) ∧
    (∃ t, exec .ddInit s = .next t ∧ clockPeriods t.waveform = clockPeriods s.waveform + 80 * s.cfg.n) ∧
    (∀ a d : Byte, ∃ t, exec (.ddBcast a d) s = .next t ∧
      clockPeriods t.waveform = clockPeriods s.waveform + 16 * s.cfg.n) ∧
    (∀ on : Bool, ∃ t, exec (.ddShutdown on) s = .next t ∧
      clockPeriods t.waveform = clockPeriods s.waveform + 16 * s.cfg.n) ∧
    (∀ on : Bool, ∃ t, exec (.ddTest on) s = .next t ∧
      clockPeriods t.waveform = clockPeriods s.waveform + 16 * s.cfg.n) ∧
    (∀ v : Word, v.toNat ≤ 15 → ∃ t, exec (.ddIntensity v) s = .next t ∧
      clockPeriods t.waveform = clockPeriods s.waveform + 16 * s.cfg.n) ∧
    ∀ vs : List Word, vs.length = s.cfg.n → (∀ v ∈ vs, v.toNat ≤ 15) →
      ∃ t, exec (.ddIntensityPd vs) s = .next t ∧
        clockPeriods t.waveform = clockPeriods s.waveform + 16 * s.cfg.n
end

