-- ==== Sys2Proof/Laws/Bits.lean ====
section
/-! SUPPORT. What the bit-vector primitives do, bit by bit; later proofs cite these and do not unfold them. -/

namespace Sys2Proof.Machine

@[simp] theorem testBit_bitsVal (n : Nat) (f : Nat → Bool) (i : Nat) :
    (bitsVal n f).testBit i = (decide (i < n) && f i) := by
  induction n with
  | zero => simp [bitsVal]
  | succ n ih =>
    rw [bitsVal, Nat.testBit_or, ih]
    rcases Nat.lt_trichotomy i n with h | h | h
    · cases hf : f n <;> simp [h, Nat.ne_of_gt h, Nat.lt_succ_of_lt h]
    · subst h; cases hf : f i <;> simp
    · have h1 : ¬ i < n := by omega
      have h2 : ¬ i < n + 1 := by omega
      cases hf : f n <;> simp [h1, h2, Nat.ne_of_lt h]

theorem bitsVal_lt (n : Nat) (f : Nat → Bool) : bitsVal n f < 2 ^ n :=
  Nat.lt_pow_two_of_testBit _ fun i hi => by simp [Nat.not_lt.mpr hi]

theorem testBit_eq_false_of_lt {v n i : Nat} (h : v < 2 ^ n) (hi : n ≤ i) : v.testBit i = false :=
  Nat.testBit_lt_two_pow (Nat.lt_of_lt_of_le h (Nat.pow_le_pow_right (by decide) hi))

@[simp] theorem testBit_maskN (n start len i : Nat) :
    (maskN n start len).testBit i = (decide (i < n) && (decide (start ≤ i) && decide (i < start + len))) := by
  simp [maskN]

theorem maskN_lt (n start len : Nat) : maskN n start len < 2 ^ n := bitsVal_lt _ _

@[simp] theorem testBit_revN (n v i : Nat) : (revN n v).testBit i = (decide (i < n) && v.testBit (n - 1 - i)) := by
  simp [revN]

theorem revN_lt (n v : Nat) : revN n v < 2 ^ n := bitsVal_lt _ _

@[simp] theorem testBit_extractN (n m start v i : Nat) :
    (extractN n m start v).testBit i = (decide (i < m) && (decide (start + i < n) && v.testBit (start + i))) := by
  simp [extractN]

theorem extractN_lt (n m start v : Nat) : extractN n m start v < 2 ^ m := bitsVal_lt _ _

@[simp] theorem testBit_setOrClear (b : Bool) (v m i : Nat) :
    (setOrClear b v m).testBit i = if m.testBit i then b else v.testBit i := by
  cases b <;> cases hm : m.testBit i <;> simp [setOrClear, hm]

theorem setOrClear_lt {n v m : Nat} (b : Bool) (hv : v < 2 ^ n) (hm : m < 2 ^ n) : setOrClear b v m < 2 ^ n :=
  Nat.lt_pow_two_of_testBit _ fun i hi => by
    simp [testBit_eq_false_of_lt hv hi, testBit_eq_false_of_lt hm hi]

@[simp] theorem testBit_putBit (v i j : Nat) (b : Bool) :
    (putBit v i b).testBit j = if j = i then b else v.testBit j := by
  simp only [putBit, testBit_setOrClear, Nat.testBit_two_pow, decide_eq_true_eq]
  by_cases h : i = j
  · simp [h]
  · simp [h, Ne.symm h]

theorem putBit_lt {n v i : Nat} (b : Bool) (hv : v < 2 ^ n) (hi : i < n) : putBit v i b < 2 ^ n :=
  setOrClear_lt b hv (Nat.pow_lt_pow_right (by decide) hi)

/-! ### Multi-word values -/

@[simp] theorem length_wordsOf (k v : Nat) : (wordsOf k v).length = k := by
  induction k generalizing v with
  | zero => rfl
  | succ k ih => simp [wordsOf, ih]

/-- The words of a value give its low `32 * k` bits. -/
theorem wordsVal_wordsOf (k v : Nat) : wordsVal (wordsOf k v) = v % 2 ^ (32 * k) := by
  induction k generalizing v with
  | zero => simp [wordsOf, wordsVal, Nat.mod_one]
  | succ k ih =>
    rw [wordsOf, wordsVal, ih, BitVec.toNat_ofNat, show 32 * (k + 1) = 32 + 32 * k by omega, Nat.pow_add, Nat.mod_mul]

/-- The words of a value that fits give it back. -/
theorem wordsVal_wordsOf_of_lt {n v : Nat} (h : v < 2 ^ n) : wordsVal (wordsOf (cw n) v) = v := by
  rw [wordsVal_wordsOf, Nat.mod_eq_of_lt]
  exact Nat.lt_of_lt_of_le h (Nat.pow_le_pow_right (by decide) (by unfold cw; omega))

/-- Words are known by their count and their value. -/
theorem wordsOf_wordsVal (ws : List Word) : wordsOf ws.length (wordsVal ws) = ws := by
  induction ws with
  | nil => rfl
  | cons w ws ih =>
    have hlt : w.toNat < 2 ^ 32 := w.isLt
    have hdiv : (w.toNat + 2 ^ 32 * wordsVal ws) / 2 ^ 32 = wordsVal ws := by omega
    have hw : BitVec.ofNat 32 (w.toNat + 2 ^ 32 * wordsVal ws) = w := by
      apply BitVec.eq_of_toNat_eq
      rw [BitVec.toNat_ofNat]; omega
    simp only [List.length_cons, wordsOf, wordsVal]
    rw [hdiv, ih, hw]

/-! ### Frames and registers -/

/-- The bits of a frame: data in bits 7:0, address in bits 15:8. -/
theorem getLsbD_frame (a d : Byte) (i : Nat) :
    (frame a d).getLsbD i = if i < 8 then d.getLsbD i else a.getLsbD (i - 8) :=
  BitVec.getLsbD_append (x := a) (y := d) (i := i)

@[simp] theorem frameAddr_frame (a d : Byte) : frameAddr (frame a d) = a := by
  apply BitVec.eq_of_getLsbD_eq
  intro i hi
  simp [frameAddr, getLsbD_frame, hi]

@[simp] theorem frameData_frame (a d : Byte) : frameData (frame a d) = d := by
  apply BitVec.eq_of_getLsbD_eq
  intro i hi
  simp [frameData, getLsbD_frame, hi]

theorem frame_eta (f : Frame) : frame (frameAddr f) (frameData f) = f := by
  apply BitVec.eq_of_getLsbD_eq
  intro i hi
  by_cases h : i < 8
  · simp [frameData, getLsbD_frame, h]
  · have h8 : i - 8 < 8 := by omega
    simp [frameAddr, getLsbD_frame, h, h8, show 8 + (i - 8) = i by omega]

/-- A register is at its own address. -/
theorem regAt_regAddr (r : DevReg) : regAt (BitVec.ofNat 8 (regAddr r)) = some r := by cases r <;> rfl

/-- The register at an address has that address. -/
theorem regAddr_of_regAt {a : Byte} {r : DevReg} (h : regAt a = some r) : regAddr r = a.toNat := by
  unfold regAt at h
  split at h <;> first | (cases h; simp [regAddr, *]) | cases h

/-- No register is at the no-op address 0 (20_memory R61). -/
theorem regAt_zero : regAt 0 = none := rfl

end Sys2Proof.Machine
end

