-- ==== Sys2Proof/Laws/State.lean ====
section
/-! SUPPORT. One lemma per field per update of the state, so that later proofs do not unfold record updates. -/

namespace Sys2Proof.Machine

variable (s : State)

@[simp] theorem State.respond_cfg (r : Response) : (s.respond r).cfg = s.cfg := rfl
@[simp] theorem State.respond_fb (r : Response) : (s.respond r).fb = s.fb := rfl
@[simp] theorem State.respond_fault (r : Response) : (s.respond r).fault = s.fault := rfl
@[simp] theorem State.respond_csN (r : Response) : (s.respond r).csN = s.csN := rfl
@[simp] theorem State.respond_clk (r : Response) : (s.respond r).clk = s.clk := rfl
@[simp] theorem State.respond_din (r : Response) : (s.respond r).din = s.din := rfl
@[simp] theorem State.respond_busHist (r : Response) : (s.respond r).busHist = s.busHist := rfl
@[simp] theorem State.respond_devreg (r : Response) : (s.respond r).devreg = s.devreg := rfl
@[simp] theorem State.respond_resp (r : Response) : (s.respond r).resp = s.resp ++ [r] := rfl
@[simp] theorem State.respond_cmdIn (r : Response) : (s.respond r).cmdIn = s.cmdIn := rfl
@[simp] theorem State.respond_wireIn (r : Response) : (s.respond r).wireIn = s.wireIn := rfl
@[simp] theorem State.respond_latchDev (r : Response) : (s.respond r).latchDev = s.latchDev := rfl
@[simp] theorem State.respond_draws (r : Response) : (s.respond r).draws = s.draws := rfl

@[simp] theorem State.ok_cfg (ws : List Word) : (s.ok ws).cfg = s.cfg := rfl
@[simp] theorem State.ok_fb (ws : List Word) : (s.ok ws).fb = s.fb := rfl
@[simp] theorem State.ok_fault (ws : List Word) : (s.ok ws).fault = s.fault := rfl
@[simp] theorem State.ok_csN (ws : List Word) : (s.ok ws).csN = s.csN := rfl
@[simp] theorem State.ok_clk (ws : List Word) : (s.ok ws).clk = s.clk := rfl
@[simp] theorem State.ok_din (ws : List Word) : (s.ok ws).din = s.din := rfl
@[simp] theorem State.ok_busHist (ws : List Word) : (s.ok ws).busHist = s.busHist := rfl
@[simp] theorem State.ok_devreg (ws : List Word) : (s.ok ws).devreg = s.devreg := rfl
@[simp] theorem State.ok_resp (ws : List Word) : (s.ok ws).resp = s.resp ++ [.ok ws] := rfl
@[simp] theorem State.ok_cmdIn (ws : List Word) : (s.ok ws).cmdIn = s.cmdIn := rfl
@[simp] theorem State.ok_wireIn (ws : List Word) : (s.ok ws).wireIn = s.wireIn := rfl
@[simp] theorem State.ok_latchDev (ws : List Word) : (s.ok ws).latchDev = s.latchDev := rfl
@[simp] theorem State.ok_draws (ws : List Word) : (s.ok ws).draws = s.draws := rfl

@[simp] theorem State.takeFault_cfg (op : Byte) (c : Cause) : (s.takeFault op c).cfg = s.cfg := rfl
@[simp] theorem State.takeFault_fb (op : Byte) (c : Cause) : (s.takeFault op c).fb = s.fb := rfl
@[simp] theorem State.takeFault_fault (op : Byte) (c : Cause) : (s.takeFault op c).fault = if faultV s.fault then s.fault else faultWord op c := rfl
@[simp] theorem State.takeFault_csN (op : Byte) (c : Cause) : (s.takeFault op c).csN = s.csN := rfl
@[simp] theorem State.takeFault_clk (op : Byte) (c : Cause) : (s.takeFault op c).clk = s.clk := rfl
@[simp] theorem State.takeFault_din (op : Byte) (c : Cause) : (s.takeFault op c).din = s.din := rfl
@[simp] theorem State.takeFault_busHist (op : Byte) (c : Cause) : (s.takeFault op c).busHist = s.busHist := rfl
@[simp] theorem State.takeFault_devreg (op : Byte) (c : Cause) : (s.takeFault op c).devreg = s.devreg := rfl
@[simp] theorem State.takeFault_resp (op : Byte) (c : Cause) : (s.takeFault op c).resp = s.resp ++ [.fault] := rfl
@[simp] theorem State.takeFault_cmdIn (op : Byte) (c : Cause) : (s.takeFault op c).cmdIn = s.cmdIn := rfl
@[simp] theorem State.takeFault_wireIn (op : Byte) (c : Cause) : (s.takeFault op c).wireIn = s.wireIn := rfl
@[simp] theorem State.takeFault_latchDev (op : Byte) (c : Cause) : (s.takeFault op c).latchDev = s.latchDev := rfl
@[simp] theorem State.takeFault_draws (op : Byte) (c : Cause) : (s.takeFault op c).draws = s.draws := rfl

@[simp] theorem State.blockReset_cfg : s.blockReset.cfg = s.cfg := rfl
@[simp] theorem State.blockReset_fb : s.blockReset.fb = State.fbInit s.cfg s.draws := rfl
@[simp] theorem State.blockReset_fault : s.blockReset.fault = 0 := rfl
@[simp] theorem State.blockReset_csN : s.blockReset.csN = true := rfl
@[simp] theorem State.blockReset_clk : s.blockReset.clk = false := rfl
@[simp] theorem State.blockReset_din : s.blockReset.din = Config.freeDin s.draws := rfl
@[simp] theorem State.blockReset_busHist : s.blockReset.busHist = [] := rfl
@[simp] theorem State.blockReset_devreg : s.blockReset.devreg = s.devreg := rfl
@[simp] theorem State.blockReset_resp : s.blockReset.resp = [] := rfl
@[simp] theorem State.blockReset_cmdIn : s.blockReset.cmdIn = s.cmdIn := rfl
@[simp] theorem State.blockReset_wireIn : s.blockReset.wireIn = s.wireIn := rfl
@[simp] theorem State.blockReset_latchDev : s.blockReset.latchDev = s.latchDev := rfl
@[simp] theorem State.blockReset_draws : s.blockReset.draws = s.draws + 1 := rfl

@[simp] theorem State.busIdle_cfg : s.busIdle.cfg = s.cfg := rfl
@[simp] theorem State.busIdle_fb : s.busIdle.fb = s.fb := rfl
@[simp] theorem State.busIdle_fault : s.busIdle.fault = s.fault := rfl
@[simp] theorem State.busIdle_csN : s.busIdle.csN = true := rfl
@[simp] theorem State.busIdle_clk : s.busIdle.clk = false := rfl
@[simp] theorem State.busIdle_din : s.busIdle.din = Config.freeDin s.draws := rfl
@[simp] theorem State.busIdle_busHist : s.busIdle.busHist = s.busHist := rfl
@[simp] theorem State.busIdle_devreg : s.busIdle.devreg = s.devreg := rfl
@[simp] theorem State.busIdle_resp : s.busIdle.resp = s.resp := rfl
@[simp] theorem State.busIdle_cmdIn : s.busIdle.cmdIn = s.cmdIn := rfl
@[simp] theorem State.busIdle_wireIn : s.busIdle.wireIn = s.wireIn := rfl
@[simp] theorem State.busIdle_latchDev : s.busIdle.latchDev = s.latchDev := rfl
@[simp] theorem State.busIdle_draws : s.busIdle.draws = s.draws + 1 := rfl

@[simp] theorem State.devWrite_cfg (i : Nat) (r : DevReg) (b : Byte) : (s.devWrite i r b).cfg = s.cfg := rfl
@[simp] theorem State.devWrite_fb (i : Nat) (r : DevReg) (b : Byte) : (s.devWrite i r b).fb = s.fb := rfl
@[simp] theorem State.devWrite_fault (i : Nat) (r : DevReg) (b : Byte) : (s.devWrite i r b).fault = s.fault := rfl
@[simp] theorem State.devWrite_csN (i : Nat) (r : DevReg) (b : Byte) : (s.devWrite i r b).csN = s.csN := rfl
@[simp] theorem State.devWrite_clk (i : Nat) (r : DevReg) (b : Byte) : (s.devWrite i r b).clk = s.clk := rfl
@[simp] theorem State.devWrite_din (i : Nat) (r : DevReg) (b : Byte) : (s.devWrite i r b).din = s.din := rfl
@[simp] theorem State.devWrite_busHist (i : Nat) (r : DevReg) (b : Byte) : (s.devWrite i r b).busHist = s.busHist := rfl
@[simp] theorem State.devWrite_devreg (i : Nat) (r : DevReg) (b : Byte) : (s.devWrite i r b).devreg = s.devreg.modify i (fun d => d.put r b) := rfl
@[simp] theorem State.devWrite_resp (i : Nat) (r : DevReg) (b : Byte) : (s.devWrite i r b).resp = s.resp := rfl
@[simp] theorem State.devWrite_cmdIn (i : Nat) (r : DevReg) (b : Byte) : (s.devWrite i r b).cmdIn = s.cmdIn := rfl
@[simp] theorem State.devWrite_wireIn (i : Nat) (r : DevReg) (b : Byte) : (s.devWrite i r b).wireIn = s.wireIn := rfl
@[simp] theorem State.devWrite_latchDev (i : Nat) (r : DevReg) (b : Byte) : (s.devWrite i r b).latchDev = s.latchDev := rfl
@[simp] theorem State.devWrite_draws (i : Nat) (r : DevReg) (b : Byte) : (s.devWrite i r b).draws = s.draws := rfl

@[simp] theorem State.devForget_cfg (i : Nat) : (s.devForget i).cfg = s.cfg := rfl
@[simp] theorem State.devForget_fb (i : Nat) : (s.devForget i).fb = s.fb := rfl
@[simp] theorem State.devForget_fault (i : Nat) : (s.devForget i).fault = s.fault := rfl
@[simp] theorem State.devForget_csN (i : Nat) : (s.devForget i).csN = s.csN := rfl
@[simp] theorem State.devForget_clk (i : Nat) : (s.devForget i).clk = s.clk := rfl
@[simp] theorem State.devForget_din (i : Nat) : (s.devForget i).din = s.din := rfl
@[simp] theorem State.devForget_busHist (i : Nat) : (s.devForget i).busHist = s.busHist := rfl
@[simp] theorem State.devForget_devreg (i : Nat) : (s.devForget i).devreg = s.devreg.set i (freeRegs s.draws i) := rfl
@[simp] theorem State.devForget_resp (i : Nat) : (s.devForget i).resp = s.resp := rfl
@[simp] theorem State.devForget_cmdIn (i : Nat) : (s.devForget i).cmdIn = s.cmdIn := rfl
@[simp] theorem State.devForget_wireIn (i : Nat) : (s.devForget i).wireIn = s.wireIn := rfl
@[simp] theorem State.devForget_latchDev (i : Nat) : (s.devForget i).latchDev = s.latchDev := rfl
@[simp] theorem State.devForget_draws (i : Nat) : (s.devForget i).draws = s.draws + 1 := rfl

@[simp] theorem State.latch_cfg (i : Nat) (f : Frame) : (s.latch i f).cfg = s.cfg := by
  unfold State.latch; split
  · rfl
  · split <;> rfl

@[simp] theorem State.latch_fb (i : Nat) (f : Frame) : (s.latch i f).fb = s.fb := by
  unfold State.latch; split
  · rfl
  · split <;> rfl

@[simp] theorem State.latch_fault (i : Nat) (f : Frame) : (s.latch i f).fault = s.fault := by
  unfold State.latch; split
  · rfl
  · split <;> rfl

@[simp] theorem State.latch_csN (i : Nat) (f : Frame) : (s.latch i f).csN = s.csN := by
  unfold State.latch; split
  · rfl
  · split <;> rfl

@[simp] theorem State.latch_clk (i : Nat) (f : Frame) : (s.latch i f).clk = s.clk := by
  unfold State.latch; split
  · rfl
  · split <;> rfl

@[simp] theorem State.latch_din (i : Nat) (f : Frame) : (s.latch i f).din = s.din := by
  unfold State.latch; split
  · rfl
  · split <;> rfl

@[simp] theorem State.latch_busHist (i : Nat) (f : Frame) : (s.latch i f).busHist = s.busHist := by
  unfold State.latch; split
  · rfl
  · split <;> rfl

@[simp] theorem State.latch_resp (i : Nat) (f : Frame) : (s.latch i f).resp = s.resp := by
  unfold State.latch; split
  · rfl
  · split <;> rfl

@[simp] theorem State.latch_cmdIn (i : Nat) (f : Frame) : (s.latch i f).cmdIn = s.cmdIn := by
  unfold State.latch; split
  · rfl
  · split <;> rfl

@[simp] theorem State.latch_wireIn (i : Nat) (f : Frame) : (s.latch i f).wireIn = s.wireIn := by
  unfold State.latch; split
  · rfl
  · split <;> rfl

@[simp] theorem State.latch_latchDev (i : Nat) (f : Frame) : (s.latch i f).latchDev = s.latchDev := by
  unfold State.latch; split
  · rfl
  · split <;> rfl

@[simp] theorem State.latchFrom_cfg (fs : List Frame) (i : Nat) (s : State) : (State.latchFrom i fs s).cfg = s.cfg := by
  induction fs generalizing i s with
  | nil => rfl
  | cons f fs ih => simp [State.latchFrom, ih]

@[simp] theorem State.latchFrom_fb (fs : List Frame) (i : Nat) (s : State) : (State.latchFrom i fs s).fb = s.fb := by
  induction fs generalizing i s with
  | nil => rfl
  | cons f fs ih => simp [State.latchFrom, ih]

@[simp] theorem State.latchFrom_fault (fs : List Frame) (i : Nat) (s : State) : (State.latchFrom i fs s).fault = s.fault := by
  induction fs generalizing i s with
  | nil => rfl
  | cons f fs ih => simp [State.latchFrom, ih]

@[simp] theorem State.latchFrom_csN (fs : List Frame) (i : Nat) (s : State) : (State.latchFrom i fs s).csN = s.csN := by
  induction fs generalizing i s with
  | nil => rfl
  | cons f fs ih => simp [State.latchFrom, ih]

@[simp] theorem State.latchFrom_clk (fs : List Frame) (i : Nat) (s : State) : (State.latchFrom i fs s).clk = s.clk := by
  induction fs generalizing i s with
  | nil => rfl
  | cons f fs ih => simp [State.latchFrom, ih]

@[simp] theorem State.latchFrom_din (fs : List Frame) (i : Nat) (s : State) : (State.latchFrom i fs s).din = s.din := by
  induction fs generalizing i s with
  | nil => rfl
  | cons f fs ih => simp [State.latchFrom, ih]

@[simp] theorem State.latchFrom_busHist (fs : List Frame) (i : Nat) (s : State) : (State.latchFrom i fs s).busHist = s.busHist := by
  induction fs generalizing i s with
  | nil => rfl
  | cons f fs ih => simp [State.latchFrom, ih]

@[simp] theorem State.latchFrom_resp (fs : List Frame) (i : Nat) (s : State) : (State.latchFrom i fs s).resp = s.resp := by
  induction fs generalizing i s with
  | nil => rfl
  | cons f fs ih => simp [State.latchFrom, ih]

@[simp] theorem State.latchFrom_cmdIn (fs : List Frame) (i : Nat) (s : State) : (State.latchFrom i fs s).cmdIn = s.cmdIn := by
  induction fs generalizing i s with
  | nil => rfl
  | cons f fs ih => simp [State.latchFrom, ih]

@[simp] theorem State.latchFrom_wireIn (fs : List Frame) (i : Nat) (s : State) : (State.latchFrom i fs s).wireIn = s.wireIn := by
  induction fs generalizing i s with
  | nil => rfl
  | cons f fs ih => simp [State.latchFrom, ih]

@[simp] theorem State.latchFrom_latchDev (fs : List Frame) (i : Nat) (s : State) : (State.latchFrom i fs s).latchDev = s.latchDev := by
  induction fs generalizing i s with
  | nil => rfl
  | cons f fs ih => simp [State.latchFrom, ih]

@[simp] theorem State.latchAll_cfg (fs : Transaction) : (s.latchAll fs).cfg = s.cfg := by
  unfold State.latchAll; split
  · simp
  · rfl

@[simp] theorem State.latchAll_fb (fs : Transaction) : (s.latchAll fs).fb = s.fb := by
  unfold State.latchAll; split
  · simp
  · rfl

@[simp] theorem State.latchAll_fault (fs : Transaction) : (s.latchAll fs).fault = s.fault := by
  unfold State.latchAll; split
  · simp
  · rfl

@[simp] theorem State.latchAll_csN (fs : Transaction) : (s.latchAll fs).csN = s.csN := by
  unfold State.latchAll; split
  · simp
  · rfl

@[simp] theorem State.latchAll_clk (fs : Transaction) : (s.latchAll fs).clk = s.clk := by
  unfold State.latchAll; split
  · simp
  · rfl

@[simp] theorem State.latchAll_din (fs : Transaction) : (s.latchAll fs).din = s.din := by
  unfold State.latchAll; split
  · simp
  · rfl

@[simp] theorem State.latchAll_busHist (fs : Transaction) : (s.latchAll fs).busHist = s.busHist := by
  unfold State.latchAll; split
  · simp
  · rfl

@[simp] theorem State.latchAll_resp (fs : Transaction) : (s.latchAll fs).resp = s.resp := by
  unfold State.latchAll; split
  · simp
  · rfl

@[simp] theorem State.latchAll_cmdIn (fs : Transaction) : (s.latchAll fs).cmdIn = s.cmdIn := by
  unfold State.latchAll; split
  · simp
  · rfl

@[simp] theorem State.latchAll_wireIn (fs : Transaction) : (s.latchAll fs).wireIn = s.wireIn := by
  unfold State.latchAll; split
  · simp
  · rfl

@[simp] theorem State.latchAll_latchDev (fs : Transaction) : (s.latchAll fs).latchDev = s.latchDev := by
  unfold State.latchAll; split
  · simp
  · rfl

@[simp] theorem State.emit_cfg (fs : Transaction) : (s.emit fs).cfg = s.cfg := by simp [State.emit]

@[simp] theorem State.emit_fb (fs : Transaction) : (s.emit fs).fb = s.fb := by simp [State.emit]

@[simp] theorem State.emit_fault (fs : Transaction) : (s.emit fs).fault = s.fault := by simp [State.emit]

@[simp] theorem State.emit_resp (fs : Transaction) : (s.emit fs).resp = s.resp := by simp [State.emit]

@[simp] theorem State.emit_cmdIn (fs : Transaction) : (s.emit fs).cmdIn = s.cmdIn := by simp [State.emit]

@[simp] theorem State.emit_wireIn (fs : Transaction) : (s.emit fs).wireIn = s.wireIn := by simp [State.emit]

@[simp] theorem State.emit_latchDev (fs : Transaction) : (s.emit fs).latchDev = s.latchDev := by simp [State.emit]

@[simp] theorem State.emit_busHist (fs : Transaction) : (s.emit fs).busHist = s.busHist ++ [fs] := by simp [State.emit]

@[simp] theorem State.emit_csN (fs : Transaction) : (s.emit fs).csN = true := rfl

@[simp] theorem State.emit_clk (fs : Transaction) : (s.emit fs).clk = false := rfl

@[simp] theorem State.emitAll_cfg (ts : List Transaction) (s : State) : (s.emitAll ts).cfg = s.cfg := by
  induction ts generalizing s with
  | nil => rfl
  | cons t ts ih => simpa [State.emitAll] using ih (s.emit t)

@[simp] theorem State.emitAll_fb (ts : List Transaction) (s : State) : (s.emitAll ts).fb = s.fb := by
  induction ts generalizing s with
  | nil => rfl
  | cons t ts ih => simpa [State.emitAll] using ih (s.emit t)

@[simp] theorem State.emitAll_fault (ts : List Transaction) (s : State) : (s.emitAll ts).fault = s.fault := by
  induction ts generalizing s with
  | nil => rfl
  | cons t ts ih => simpa [State.emitAll] using ih (s.emit t)

@[simp] theorem State.emitAll_resp (ts : List Transaction) (s : State) : (s.emitAll ts).resp = s.resp := by
  induction ts generalizing s with
  | nil => rfl
  | cons t ts ih => simpa [State.emitAll] using ih (s.emit t)

@[simp] theorem State.emitAll_cmdIn (ts : List Transaction) (s : State) : (s.emitAll ts).cmdIn = s.cmdIn := by
  induction ts generalizing s with
  | nil => rfl
  | cons t ts ih => simpa [State.emitAll] using ih (s.emit t)

@[simp] theorem State.emitAll_wireIn (ts : List Transaction) (s : State) : (s.emitAll ts).wireIn = s.wireIn := by
  induction ts generalizing s with
  | nil => rfl
  | cons t ts ih => simpa [State.emitAll] using ih (s.emit t)

@[simp] theorem State.emitAll_latchDev (ts : List Transaction) (s : State) : (s.emitAll ts).latchDev = s.latchDev := by
  induction ts generalizing s with
  | nil => rfl
  | cons t ts ih => simpa [State.emitAll] using ih (s.emit t)

@[simp] theorem State.emitAll_busHist (ts : List Transaction) (s : State) : (s.emitAll ts).busHist = s.busHist ++ ts := by
  induction ts generalizing s with
  | nil => simp [State.emitAll]
  | cons t ts ih => simpa [State.emitAll] using ih (s.emit t)

/-- The bus is idle after any number of transactions, if it was before (10_state R33). -/
theorem State.emitAll_idle (ts : List Transaction) (s : State) (h : s.csN = true ∧ s.clk = false) :
    (s.emitAll ts).csN = true ∧ (s.emitAll ts).clk = false := by
  induction ts generalizing s with
  | nil => exact h
  | cons t ts ih => simpa [State.emitAll] using ih (s.emit t) (by simp)

@[simp] theorem State.drive_cfg (ts : List Transaction) : (s.drive ts).cfg = s.cfg := by simp [State.drive]

@[simp] theorem State.drive_fb (ts : List Transaction) : (s.drive ts).fb = s.fb := by simp [State.drive]

@[simp] theorem State.drive_fault (ts : List Transaction) : (s.drive ts).fault = s.fault := by simp [State.drive]

@[simp] theorem State.drive_csN (ts : List Transaction) : (s.drive ts).csN = (s.emitAll ts).csN := by simp [State.drive]

@[simp] theorem State.drive_clk (ts : List Transaction) : (s.drive ts).clk = (s.emitAll ts).clk := by simp [State.drive]

@[simp] theorem State.drive_din (ts : List Transaction) : (s.drive ts).din = (s.emitAll ts).din := by simp [State.drive]

@[simp] theorem State.drive_busHist (ts : List Transaction) : (s.drive ts).busHist = s.busHist ++ ts := by simp [State.drive]

@[simp] theorem State.drive_devreg (ts : List Transaction) : (s.drive ts).devreg = (s.emitAll ts).devreg := by simp [State.drive]

@[simp] theorem State.drive_resp (ts : List Transaction) : (s.drive ts).resp = s.resp ++ [.ok []] := by simp [State.drive]

@[simp] theorem State.drive_cmdIn (ts : List Transaction) : (s.drive ts).cmdIn = s.cmdIn := by simp [State.drive]

@[simp] theorem State.drive_wireIn (ts : List Transaction) : (s.drive ts).wireIn = s.wireIn := by simp [State.drive]

@[simp] theorem State.drive_latchDev (ts : List Transaction) : (s.drive ts).latchDev = s.latchDev := by simp [State.drive]

@[simp] theorem State.drive_draws (ts : List Transaction) : (s.drive ts).draws = (s.emitAll ts).draws := by simp [State.drive]

/-- Reading back a register just written, and any other (10_state R35). -/
theorem DevRegs.get_put (d : DevRegs) (r r' : DevReg) (b : Byte) : (d.put r b).get r' = if r' = r then b else d.get r' := by
  cases r <;> cases r' <;> rfl

/-- Registers are known by what is read of them. -/
theorem DevRegs.ext_get (d e : DevRegs) (h : ∀ r, d.get r = e.get r) : d = e := by
  cases d; cases e
  simp only [DevRegs.mk.injEq]
  exact ⟨h .row0, h .row1, h .row2, h .row3, h .row4, h .row5, h .row6, h .row7, h .decodeMode, h .intensity, h .scanLimit,
    h .shutdown, h .displayTest⟩

/-- The fields of the word a fault records (60_exceptions R224). -/
theorem faultWord_fields (op : Byte) (c : Cause) : faultV (faultWord op c) = true ∧ faultOp (faultWord op c) = op ∧
    faultCause (faultWord op c) = causeCode c ∧ faultReserved (faultWord op c) = 0 := by
  refine ⟨?_, ?_, ?_, ?_⟩
  · simp only [faultV, faultWord, BitVec.getLsbD_append]
    rw [if_neg (by omega), if_neg (by omega), if_neg (by omega), if_neg (by omega)]; rfl
  · ext i hi
    simp only [faultOp, faultWord, BitVec.getElem_extractLsb', BitVec.getLsbD_append]
    rw [if_neg (by omega), if_neg (by omega), if_pos (by omega), show 16 + i - 8 - 8 = i by omega, BitVec.getLsbD_eq_getElem hi]
  · ext i hi
    simp only [faultCause, faultWord, BitVec.getElem_extractLsb', BitVec.getLsbD_append]
    rw [if_pos (by omega), Nat.zero_add, BitVec.getLsbD_eq_getElem hi]
  · apply BitVec.eq_of_getLsbD_eq
    intro i hi
    simp only [faultReserved, faultWord, BitVec.getLsbD_append, BitVec.getLsbD_extractLsb']
    split
    · rw [if_neg (by omega), if_pos (by omega)]; simp
    · rw [if_neg (by omega), if_neg (by omega), if_neg (by omega), if_pos (by omega)]; simp

/-- A block not halted takes a fault whole (60_exceptions R224). -/
theorem State.takeFault_of_running (op : Byte) (c : Cause) (h : faultV s.fault = false) :
    s.takeFault op c = s.faulted op c := by
  simp [State.takeFault, State.faulted, State.respond, h]

end Sys2Proof.Machine
end

