-- ==== Sys2Proof/Laws/Bus.lean ====
section
/-! SUPPORT. What a transaction does to the devices: who latches what, and that nobody else is touched. -/

namespace Sys2Proof.Machine

variable (s : State)

/-! ### One device latches one frame (42_display_driver R192) -/

@[simp] theorem State.latch_devreg_length (i : Nat) (f : Frame) : (s.latch i f).devreg.length = s.devreg.length := by
  unfold State.latch; split
  · rfl
  · split <;> simp

/-- Another device's registers are untouched. -/
theorem State.latch_other {i k : Nat} (h : k ≠ i) (f : Frame) : (s.latch i f).devreg[k]? = s.devreg[k]? := by
  unfold State.latch; split
  · rfl
  · split
    · simp [Ne.symm h]
    · simp [List.getElem?_set_ne (Ne.symm h)]

/-- The no-op register changes nothing. -/
theorem State.latch_noop {f : Frame} (h : frameAddr f = 0) (i : Nat) : s.latch i f = s := by simp [State.latch, h]

/-- An assigned address stores the data. -/
theorem State.latch_assigned {f : Frame} {r : DevReg} (h : regAt (frameAddr f) = some r) (i : Nat) :
    s.latch i f = s.devWrite i r (frameData f) := by
  have h0 : frameAddr f ≠ 0 := by intro h0; rw [h0, regAt_zero] at h; cases h
  rw [State.latch, if_neg h0, h]

/-- What is read of a device after one register of one device is written. -/
theorem State.devRead_devWrite {i k : Nat} (hk : k < s.devreg.length) (r r' : DevReg) (b : Byte) :
    (s.devWrite i r b).devRead k r' = if k = i ∧ r' = r then some b else s.devRead k r' := by
  by_cases hki : k = i
  · subst hki
    simp [State.devRead, hk, DevRegs.get_put]
    split <;> simp_all
  · simp [State.devRead, Ne.symm hki, hki]

/-! ### The end of a transaction -/

@[simp] theorem State.latchFrom_devreg_length (fs : List Frame) (i : Nat) (s : State) :
    (State.latchFrom i fs s).devreg.length = s.devreg.length := by
  induction fs generalizing i s with
  | nil => rfl
  | cons f fs ih => simp [State.latchFrom, ih]

/-- A device no frame is for keeps its registers. -/
theorem State.latchFrom_outside (fs : List Frame) (i : Nat) (s : State) {k : Nat} (h : k < i ∨ i + fs.length ≤ k) :
    (State.latchFrom i fs s).devreg[k]? = s.devreg[k]? := by
  induction fs generalizing i s with
  | nil => rfl
  | cons f fs ih =>
    simp only [List.length_cons] at h
    rw [State.latchFrom, ih (i + 1) _ (by omega), State.latch_other s (by omega)]

/-- Device `k` latches the frame at its place, as if it stood alone. -/
theorem State.latchFrom_at (fs : List Frame) (i : Nat) (s : State) {k : Nat} {f : Frame} (hf : fs[k]? = some f) :
    ∃ u : State, u.devreg[i + k]? = s.devreg[i + k]? ∧
      (State.latchFrom i fs s).devreg[i + k]? = (u.latch (i + k) f).devreg[i + k]? := by
  induction fs generalizing i s k with
  | nil => simp at hf
  | cons g fs ih =>
    cases k with
    | zero =>
      simp only [List.getElem?_cons_zero, Option.some.injEq] at hf
      subst hf
      exact ⟨s, rfl, by rw [State.latchFrom, State.latchFrom_outside _ _ _ (by omega)]; rfl⟩
    | succ k =>
      rw [List.getElem?_cons_succ] at hf
      obtain ⟨u, h1, h2⟩ := ih (i + 1) (s.latch i g) hf
      have hk : i + 1 + k = i + (k + 1) := by omega
      rw [hk] at h1 h2
      exact ⟨u, by rw [h1, State.latch_other s (by omega)], by rw [State.latchFrom, h2]⟩

@[simp] theorem State.latchAll_devreg_length (fs : Transaction) : (s.latchAll fs).devreg.length = s.devreg.length := by
  unfold State.latchAll; split <;> simp

@[simp] theorem State.emit_devreg_length (fs : Transaction) : (s.emit fs).devreg.length = s.devreg.length := by
  simp [State.emit]

@[simp] theorem State.emitAll_devreg_length (ts : List Transaction) (s : State) :
    (s.emitAll ts).devreg.length = s.devreg.length := by
  induction ts generalizing s with
  | nil => rfl
  | cons t ts ih => simpa [State.emitAll] using ih (s.emit t)

@[simp] theorem State.drive_devRead (ts : List Transaction) (k : Nat) (r : DevReg) :
    (s.drive ts).devRead k r = (s.emitAll ts).devRead k r := by simp [State.devRead]

/-- A full transaction whose frame for device `k` has an assigned address: that register holds the data, the device's other
registers are as before (42_display_driver R192). -/
theorem State.emit_devRead {fs : Transaction} (hn : fs.length = s.cfg.n) {k : Nat} (hk : k < s.devreg.length)
    {f : Frame} (hf : fs[k]? = some f) {r0 : DevReg} (hr : regAt (frameAddr f) = some r0) (r : DevReg) :
    (s.emit fs).devRead k r = if r = r0 then some (frameData f) else s.devRead k r := by
  obtain ⟨u, h1, h2⟩ := State.latchFrom_at fs 0 { s with busHist := s.busHist ++ [fs] } hf
  simp only [Nat.zero_add] at h1 h2
  have he : (s.emit fs).devreg[k]? = (u.latch k f).devreg[k]? := by
    rw [← h2]; simp [State.emit, State.latchAll, hn]
  rw [State.latch_assigned u hr] at he
  have : u.devreg[k]? = s.devreg[k]? := h1
  simp only [State.devRead, he, State.devWrite_devreg, List.getElem?_modify_eq, this, List.getElem?_eq_getElem hk]
  simp [DevRegs.get_put]
  split <;> simp_all

/-- A full transaction whose frame for device `k` is a no-op leaves the device as it was (42_display_driver R192). -/
theorem State.emit_devRead_noop {fs : Transaction} (hn : fs.length = s.cfg.n) {k : Nat}
    {f : Frame} (hf : fs[k]? = some f) (h0 : frameAddr f = 0) (r : DevReg) :
    (s.emit fs).devRead k r = s.devRead k r := by
  obtain ⟨u, h1, h2⟩ := State.latchFrom_at fs 0 { s with busHist := s.busHist ++ [fs] } hf
  simp only [Nat.zero_add] at h1 h2
  have he : (s.emit fs).devreg[k]? = (u.latch k f).devreg[k]? := by
    rw [← h2]; simp [State.emit, State.latchAll, hn]
  rw [State.latch_noop u h0] at he
  simp [State.devRead, he, h1]

@[simp] theorem length_bcast (c : Instance) (a d : Byte) : (bcast c a d).length = c.n := by simp [bcast]

theorem getElem?_bcast {c : Instance} (a d : Byte) {k : Nat} (hk : k < c.n) : (bcast c a d)[k]? = some (frame a d) := by
  simp [bcast, hk]

/-- A broadcast to an assigned register: every device holds the data there, its other registers are as before
(42_display_driver R171, R192). -/
theorem State.emit_bcast {a d : Byte} {r0 : DevReg} (hr : regAt a = some r0) (hd : s.devreg.length = s.cfg.n) {k : Nat}
    (hk : k < s.cfg.n) (r : DevReg) :
    (s.emit (bcast s.cfg a d)).devRead k r = if r = r0 then some d else s.devRead k r := by
  rw [State.emit_devRead s (length_bcast _ _ _) (by omega) (getElem?_bcast a d hk) (r0 := r0) (by simpa using hr)]
  simp

@[simp] theorem length_sendRow (c : Instance) (fb : List Nat) (r : Nat) : (sendRow c fb r).length = c.n := by
  simp [sendRow, Instance.n]

/-- Every transaction the driver sends has one frame per device (42_display_driver R170). -/
theorem full_initAll (c : Instance) : ∀ t ∈ initAll c, t.length = c.n := by simp [initAll]

theorem full_sendAll (c : Instance) (fb : List Nat) : ∀ t ∈ sendAll c fb, t.length = c.n := by
  intro t ht
  obtain ⟨r, _, rfl⟩ := List.mem_map.mp ht
  simp

theorem full_clearAllDigits (c : Instance) : ∀ t ∈ clearAllDigits c, t.length = c.n := by
  intro t ht
  obtain ⟨r, _, rfl⟩ := List.mem_map.mp ht
  simp

/-- What a driver command that sends something leaves of everything but the devices. -/
theorem State.sent_drive (ts : List Transaction) (h : ts ≠ []) : s.Sent (s.drive ts) ts := by
  have idle : (s.emitAll ts).csN = true ∧ (s.emitAll ts).clk = false := by
    rcases List.eq_nil_or_concat ts with rfl | ⟨l, a, rfl⟩
    · exact absurd rfl h
    · simp [State.emitAll]
  constructor <;> simp [idle]


end Sys2Proof.Machine
end

