-- ==== Sys2Proof/Laws/Encoding.lean ====
section
/-! SUPPORT. The fields of a header read back what was put there, and the opcode map finds every row. -/

namespace Sys2Proof

open Sys2Proof.Machine

/-- The bits of a header (30_encoding R71). -/
theorem getLsbD_mkHeader (op : Byte) (f : Bool) (p q : Byte) (i : Nat) :
    (mkHeader op f p q).getLsbD i =
      if i < 8 then q.getLsbD i
      else if i < 16 then p.getLsbD (i - 8)
      else if i < 23 then false
      else if i < 24 then f
      else op.getLsbD (i - 24) := by
  have h1 := BitVec.getLsbD_append (x := op ++ BitVec.ofBool f ++ 0#7 ++ p) (y := q) (i := i)
  have h2 := BitVec.getLsbD_append (x := op ++ BitVec.ofBool f ++ 0#7) (y := p) (i := i - 8)
  have h3 := BitVec.getLsbD_append (x := op ++ BitVec.ofBool f) (y := 0#7) (i := i - 8 - 8)
  have h4 := BitVec.getLsbD_append (x := op) (y := BitVec.ofBool f) (i := i - 8 - 8 - 7)
  have h0 : (mkHeader op f p q).getLsbD i = (op ++ BitVec.ofBool f ++ 0#7 ++ p ++ q).getLsbD i := rfl
  rw [h0, h1, h2, h3, h4]
  by_cases c1 : i < 8
  · simp [c1]
  · by_cases c2 : i < 16
    · simp [c1, c2, show i - 8 < 8 by omega]
    · by_cases c3 : i < 23
      · simp [c1, c2, c3, show ¬ i - 8 < 8 by omega, show i - 8 - 8 < 7 by omega]
      · by_cases c4 : i < 24
        · have : i = 23 := by omega
          subst this; simp
        · simp [c1, c2, c3, c4, show ¬ i - 8 < 8 by omega, show ¬ i - 8 - 8 < 7 by omega,
            show ¬ i - 8 - 8 - 7 < 1 by omega, show i - 8 - 8 - 7 - 1 = i - 24 by omega]

@[simp] theorem hdrOp_mkHeader (op : Byte) (f : Bool) (p q : Byte) : hdrOp (mkHeader op f p q) = op := by
  apply BitVec.eq_of_getLsbD_eq
  intro i hi
  simp [hdrOp, getLsbD_mkHeader, hi, show ¬ 24 + i < 8 by omega, show ¬ 24 + i < 16 by omega, show ¬ 24 + i < 23 by omega]

@[simp] theorem hdrF_mkHeader (op : Byte) (f : Bool) (p q : Byte) : hdrF (mkHeader op f p q) = f := by
  rw [hdrF, getLsbD_mkHeader]; simp

@[simp] theorem hdrRsv_mkHeader (op : Byte) (f : Bool) (p q : Byte) : hdrRsv (mkHeader op f p q) = 0 := by
  apply BitVec.eq_of_getLsbD_eq
  intro i hi
  simp [hdrRsv, getLsbD_mkHeader, hi, show ¬ 16 + i < 8 by omega, show ¬ 16 + i < 16 by omega, show 16 + i < 23 by omega]

@[simp] theorem hdrP_mkHeader (op : Byte) (f : Bool) (p q : Byte) : hdrP (mkHeader op f p q) = p := by
  apply BitVec.eq_of_getLsbD_eq
  intro i hi
  simp [hdrP, getLsbD_mkHeader, hi, show ¬ 8 + i < 8 by omega, show 8 + i < 16 by omega]

@[simp] theorem hdrQ_mkHeader (op : Byte) (f : Bool) (p q : Byte) : hdrQ (mkHeader op f p q) = q := by
  apply BitVec.eq_of_getLsbD_eq
  intro i hi
  simp [hdrQ, getLsbD_mkHeader, hi]

/-- A header is its fields (30_encoding R71). -/
theorem mkHeader_eta {h : Word} (hr : hdrRsv h = 0) : mkHeader (hdrOp h) (hdrF h) (hdrP h) (hdrQ h) = h := by
  apply BitVec.eq_of_getLsbD_eq
  intro i hi
  rw [getLsbD_mkHeader]
  by_cases c1 : i < 8
  · simp [c1, hdrQ]
  · by_cases c2 : i < 16
    · simp [c1, c2, hdrP, show i - 8 < 8 by omega, show 8 + (i - 8) = i by omega]
    · by_cases c3 : i < 23
      · have hb : (hdrRsv h).getLsbD (i - 16) = false := by simp [hr]
        rw [hdrRsv, BitVec.getLsbD_extractLsb', show 16 + (i - 16) = i by omega] at hb
        simpa [c1, c2, c3, show i - 16 < 7 by omega] using hb.symm
      · by_cases c4 : i < 24
        · have : i = 23 := by omega
          subst this; simp [hdrF]
        · simp [c1, c2, c3, c4, hdrOp, show i - 24 < 8 by omega, show 24 + (i - 24) = i by omega]

/-- Every row is found by its own code (30_encoding R81). -/
@[simp] theorem opOf_code (o : Op) : opOf o.code = some o := by cases o <;> rfl

/-- The row found has the code looked for (30_encoding R82). -/
theorem code_of_opOf {b : Byte} {o : Op} (h : opOf b = some o) : o.code = b := by
  have := List.find?_some h
  simpa using this

@[simp] theorem elemWidthOf_code (e : ElemWidth) : elemWidthOf e.code = some e := by cases e <;> rfl

theorem code_of_elemWidthOf {q : Byte} {e : ElemWidth} (h : elemWidthOf q = some e) : e.code = q := by
  apply BitVec.eq_of_toNat_eq
  unfold elemWidthOf at h
  split at h <;> first | (cases h; simp [ElemWidth.code, *]) | cases h

/-- The element width is the number its field holds. -/
theorem toNat_elemCode (e : ElemWidth) : e.code.toNat = e.bits := by cases e <;> rfl

@[simp] theorem length_readRows (k c : Nat) (ws : List Word) : (readRows k c ws).length = k := by
  induction k generalizing ws with
  | zero => rfl
  | succ k ih => simp [readRows, ih]

/-- Rows written out and read back (30_encoding R78). -/
theorem readRows_wordsOf (c : Nat) (rows : List Nat) (h : ∀ r ∈ rows, r < 2 ^ (32 * c)) :
    readRows rows.length c (rows.flatMap (wordsOf c)) = rows := by
  induction rows with
  | nil => rfl
  | cons r rows ih =>
    have hr : wordsVal (wordsOf c r) = r := by
      rw [wordsVal_wordsOf, Nat.mod_eq_of_lt (h r (by simp))]
    simp only [List.length_cons, List.flatMap_cons, readRows]
    rw [List.take_left' (length_wordsOf c r), List.drop_left' (length_wordsOf c r), hr, ih (fun r' hr' => h r' (by simp [hr']))]

/-- Rows read and written out again. -/
theorem wordsOf_readRows (k c : Nat) (ws : List Word) (h : ws.length = k * c) :
    (readRows k c ws).flatMap (wordsOf c) = ws := by
  induction k generalizing ws with
  | zero => simpa [readRows] using (List.length_eq_zero_iff.mp (by simpa using h)).symm
  | succ k ih =>
    have ht : (ws.take c).length = c := by
      rw [List.length_take, h, Nat.min_eq_left]; exact Nat.le_mul_of_pos_left _ (by omega)
    have hd : (ws.drop c).length = k * c := by rw [List.length_drop, h, Nat.succ_mul]; omega
    rw [readRows, List.flatMap_cons, ih _ hd]
    have hw := wordsOf_wordsVal (ws.take c)
    rw [ht] at hw
    rw [hw, List.take_append_drop]

/-- Everything an accepted command frame has passed (60_exceptions R223). -/
theorem decodeCmd_ok {f : CmdFrame} {i : Instr} (h : decodeCmd f = .ok i) :
    ∃ o, opOf (hdrOp f.header) = some o ∧ o.code = hdrOp f.header ∧ headerOk o f.header = true ∧
      frameLen o f = some f.length ∧ readOperands o f.header f.operands = .ok i := by
  unfold decodeCmd at h
  split at h
  · cases h
  · rename_i o ho
    split at h
    · split at h
      · exact ⟨o, ho, code_of_opOf ho, ‹_›, ‹_›, h⟩
      · cases h
    · cases h

/-- Operand words are only ever refused for their length or a reserved field. -/
theorem readOperands_error {o : Op} {h : Word} {ws : List Word} {c : Cause} (hr : readOperands o h ws = .error c) :
    c = .framing ∨ c = .reservedField := by
  cases o <;> simp only [readOperands, readC0, readCXY, readCRECT, readCBRSL, readCBRS, readV, readCWRITE, readBcast,
    readIntensity, readCLIST] at hr <;> (repeat' split at hr) <;> (try simp at hr) <;> (try subst hr) <;> simp

/-- Why a command frame is refused: its opcode is not assigned, or it is and a field or the length is wrong. -/
theorem decodeCmd_error {f : CmdFrame} {c : Cause} (h : decodeCmd f = .error c) :
    (c = .illegalOpcode ∧ opOf (hdrOp f.header) = none) ∨
    ((c = .reservedField ∨ c = .framing) ∧ opOf (hdrOp f.header) ≠ none) := by
  unfold decodeCmd at h
  split at h
  · cases h; exact .inl ⟨rfl, ‹_›⟩
  · rename_i o ho
    refine .inr ⟨?_, by simp [ho]⟩
    split at h
    · split at h
      · exact (readOperands_error h).symm
      · cases h; simp
    · cases h; simp


end Sys2Proof
end

