-- ==== Sys2Proof/Laws/PerInstr.lean ====
section
/-! SUPPORT. One statement about every instruction as syntax: its first word, under the mask of its own row of
`spec/opcode_table.json`, is that row's match (30_encoding R82, R87). -/

namespace Sys2Proof.Laws.HeaderMatchesTable

open Sys2Proof Sys2Proof.Machine

/-- A command's first word under a mask. -/
def cmdMatches (i : Instr) (mask matched : Word) : Prop := ∃ f, encode i = .cmd f ∧ f.header &&& mask = matched

/-- A wire frame under a mask. -/
def wireMatches (i : Instr) (mask matched : Frame) : Prop := ∃ f, encode i = .wire f ∧ f &&& mask = matched

/-- The first word of the instruction matches its row of the table, whose match and mask are written here from the table. -/
def Statement (i : Instr) : Prop :=
  match i with
  | .brSet _ _ _ _ _ => cmdMatches i 0xFF7F00FF 0x01000000
  | .brFlip _ _ _ _ => cmdMatches i 0xFFFF00FF 0x02000000
  | .brExtract _ _ _ _ => cmdMatches i 0xFFFF0000 0x03000000
  | .brReverse _ _ => cmdMatches i 0xFFFF00FF 0x04000000
  | .fbWrite _ _ _ _ _ _ => cmdMatches i 0xFFFFFF00 0x10000000
  | .fbClear _ _ _ _ => cmdMatches i 0xFFFFFFFF 0x11000000
  | .fbClearAll => cmdMatches i 0xFFFFFFFF 0x12000000
  | .fbTurnDot _ _ _ => cmdMatches i 0xFF7FFFFF 0x13000000
  | .fbExtH _ _ _ => cmdMatches i 0xFF7FFFFF 0x14000000
  | .fbExtV _ _ _ => cmdMatches i 0xFF7FFFFF 0x15000000
  | .fbWidth => cmdMatches i 0xFFFFFFFF 0x16000000
  | .fbHeight => cmdMatches i 0xFFFFFFFF 0x17000000
  | .ddInit => cmdMatches i 0xFFFFFFFF 0x20000000
  | .ddBcast _ _ => cmdMatches i 0xFFFFFFFF 0x21000000
  | .ddSend => cmdMatches i 0xFFFFFFFF 0x22000000
  | .ddIntensity _ => cmdMatches i 0xFFFFFFFF 0x23000000
  | .ddIntensityPd _ => cmdMatches i 0xFFFFFFFF 0x24000000
  | .ddShutdown _ => cmdMatches i 0xFF7FFFFF 0x25000000
  | .ddTest _ => cmdMatches i 0xFF7FFFFF 0x26000000
  | .ddClear => cmdMatches i 0xFFFFFFFF 0x27000000
  | .wireNoop _ => wireMatches i 0xFF00 0x0000
  | .wireRow0 _ => wireMatches i 0xFF00 0x0100
  | .wireRow1 _ => wireMatches i 0xFF00 0x0200
  | .wireRow2 _ => wireMatches i 0xFF00 0x0300
  | .wireRow3 _ => wireMatches i 0xFF00 0x0400
  | .wireRow4 _ => wireMatches i 0xFF00 0x0500
  | .wireRow5 _ => wireMatches i 0xFF00 0x0600
  | .wireRow6 _ => wireMatches i 0xFF00 0x0700
  | .wireRow7 _ => wireMatches i 0xFF00 0x0800
  | .wireDecode _ => wireMatches i 0xFF00 0x0900
  | .wireIntensity _ => wireMatches i 0xFF00 0x0A00
  | .wireScanLimit _ => wireMatches i 0xFF00 0x0B00
  | .wireShutdown _ => wireMatches i 0xFF00 0x0C00
  | .wireTest _ => wireMatches i 0xFF00 0x0F00

/-- The header of a command under its row's mask, from the fields alone. -/
theorem header_and (op : Byte) (f : Bool) (p q : Byte) (mf : Bool) (mp mq : Byte) (hf : (f && mf) = false)
    (hp : p &&& mp = 0) (hq : q &&& mq = 0) :
    mkHeader op f p q &&& (0xFF#8 ++ BitVec.ofBool mf ++ 0x7F#7 ++ mp ++ mq : BitVec 32) = mkHeader op false 0 0 := by
  unfold mkHeader
  rw [BitVec.and_append, BitVec.and_append, BitVec.and_append, BitVec.and_append, hp, hq]
  have h1 : op &&& 0xFF#8 = op := BitVec.and_allOnes
  have h2 : BitVec.ofBool f &&& BitVec.ofBool mf = BitVec.ofBool false := by rw [← hf]; cases f <;> cases mf <;> rfl
  have h3 : 0#7 &&& 0x7F#7 = 0#7 := rfl
  rw [h1, h2, h3]

/-- The address of a wire frame under the mask of its row. -/
theorem frame_and (a d : Byte) : frame a d &&& 0xFF00#16 = frame a 0 := by
  have h : frame a d &&& (0xFF#8 ++ 0x00#8 : BitVec 16) = frame a 0 := by
    unfold frame
    rw [BitVec.and_append]
    have h1 : a &&& 0xFF#8 = a := BitVec.and_allOnes
    rw [h1, BitVec.and_zero]
    rfl
  exact h

theorem brSet (v : Bool) (n : Byte) (start len : Word) (val : Nat) : Statement (.brSet v n start len val) :=
  ⟨_, rfl, (header_and _ v _ _ false 0x0 0xff (by simp) (by simp) (by simp)).trans rfl⟩
theorem brFlip (n : Byte) (start len : Word) (val : Nat) : Statement (.brFlip n start len val) :=
  ⟨_, rfl, (header_and _ false _ _ true 0x0 0xff rfl (by simp) (by simp)).trans rfl⟩
theorem brExtract (n m : Byte) (start : Word) (val : Nat) : Statement (.brExtract n m start val) :=
  ⟨_, rfl, (header_and _ false _ _ true 0x0 0x0 rfl (by simp) (by simp)).trans rfl⟩
theorem brReverse (n : Byte) (val : Nat) : Statement (.brReverse n val) :=
  ⟨_, rfl, (header_and _ false _ _ true 0x0 0xff rfl (by simp) (by simp)).trans rfl⟩
theorem fbWrite (e : ElemWidth) (x y wd ht : Word) (rows : List Nat) : Statement (.fbWrite e x y wd ht rows) :=
  ⟨_, rfl, (header_and _ false _ _ true 0xff 0x0 rfl (by simp) (by simp)).trans rfl⟩
theorem fbClear (x y wd ht : Word) : Statement (.fbClear x y wd ht) :=
  ⟨_, rfl, (header_and _ false _ _ true 0xff 0xff rfl (by simp) (by simp)).trans rfl⟩
theorem fbClearAll : Statement (.fbClearAll) :=
  ⟨_, rfl, (header_and _ false _ _ true 0xff 0xff rfl (by simp) (by simp)).trans rfl⟩
theorem fbTurnDot (on : Bool) (x y : Word) : Statement (.fbTurnDot on x y) :=
  ⟨_, rfl, (header_and _ on _ _ false 0xff 0xff (by simp) (by simp) (by simp)).trans rfl⟩
theorem fbExtH (rev : Bool) (x y : Word) : Statement (.fbExtH rev x y) :=
  ⟨_, rfl, (header_and _ rev _ _ false 0xff 0xff (by simp) (by simp) (by simp)).trans rfl⟩
theorem fbExtV (rev : Bool) (x y : Word) : Statement (.fbExtV rev x y) :=
  ⟨_, rfl, (header_and _ rev _ _ false 0xff 0xff (by simp) (by simp) (by simp)).trans rfl⟩
theorem fbWidth : Statement (.fbWidth) :=
  ⟨_, rfl, (header_and _ false _ _ true 0xff 0xff rfl (by simp) (by simp)).trans rfl⟩
theorem fbHeight : Statement (.fbHeight) :=
  ⟨_, rfl, (header_and _ false _ _ true 0xff 0xff rfl (by simp) (by simp)).trans rfl⟩
theorem ddInit : Statement (.ddInit) :=
  ⟨_, rfl, (header_and _ false _ _ true 0xff 0xff rfl (by simp) (by simp)).trans rfl⟩
theorem ddBcast (addr data : Byte) : Statement (.ddBcast addr data) :=
  ⟨_, rfl, (header_and _ false _ _ true 0xff 0xff rfl (by simp) (by simp)).trans rfl⟩
theorem ddSend : Statement (.ddSend) :=
  ⟨_, rfl, (header_and _ false _ _ true 0xff 0xff rfl (by simp) (by simp)).trans rfl⟩
theorem ddIntensity (value : Word) : Statement (.ddIntensity value) :=
  ⟨_, rfl, (header_and _ false _ _ true 0xff 0xff rfl (by simp) (by simp)).trans rfl⟩
theorem ddIntensityPd (values : List Word) : Statement (.ddIntensityPd values) :=
  ⟨_, rfl, (header_and _ false _ _ true 0xff 0xff rfl (by simp) (by simp)).trans rfl⟩
theorem ddShutdown (on : Bool) : Statement (.ddShutdown on) :=
  ⟨_, rfl, (header_and _ on _ _ false 0xff 0xff (by simp) (by simp) (by simp)).trans rfl⟩
theorem ddTest (on : Bool) : Statement (.ddTest on) :=
  ⟨_, rfl, (header_and _ on _ _ false 0xff 0xff (by simp) (by simp) (by simp)).trans rfl⟩
theorem ddClear : Statement (.ddClear) :=
  ⟨_, rfl, (header_and _ false _ _ true 0xff 0xff rfl (by simp) (by simp)).trans rfl⟩
theorem wireNoop (data : Byte) : Statement (.wireNoop data) := ⟨_, rfl, (frame_and _ data).trans rfl⟩
theorem wireRow0 (data : Byte) : Statement (.wireRow0 data) := ⟨_, rfl, (frame_and _ data).trans rfl⟩
theorem wireRow1 (data : Byte) : Statement (.wireRow1 data) := ⟨_, rfl, (frame_and _ data).trans rfl⟩
theorem wireRow2 (data : Byte) : Statement (.wireRow2 data) := ⟨_, rfl, (frame_and _ data).trans rfl⟩
theorem wireRow3 (data : Byte) : Statement (.wireRow3 data) := ⟨_, rfl, (frame_and _ data).trans rfl⟩
theorem wireRow4 (data : Byte) : Statement (.wireRow4 data) := ⟨_, rfl, (frame_and _ data).trans rfl⟩
theorem wireRow5 (data : Byte) : Statement (.wireRow5 data) := ⟨_, rfl, (frame_and _ data).trans rfl⟩
theorem wireRow6 (data : Byte) : Statement (.wireRow6 data) := ⟨_, rfl, (frame_and _ data).trans rfl⟩
theorem wireRow7 (data : Byte) : Statement (.wireRow7 data) := ⟨_, rfl, (frame_and _ data).trans rfl⟩
theorem wireDecode (data : Byte) : Statement (.wireDecode data) := ⟨_, rfl, (frame_and _ data).trans rfl⟩
theorem wireIntensity (data : Byte) : Statement (.wireIntensity data) := ⟨_, rfl, (frame_and _ data).trans rfl⟩
theorem wireScanLimit (data : Byte) : Statement (.wireScanLimit data) := ⟨_, rfl, (frame_and _ data).trans rfl⟩
theorem wireShutdown (data : Byte) : Statement (.wireShutdown data) := ⟨_, rfl, (frame_and _ data).trans rfl⟩
theorem wireTest (data : Byte) : Statement (.wireTest data) := ⟨_, rfl, (frame_and _ data).trans rfl⟩

end Sys2Proof.Laws.HeaderMatchesTable
end

