-- ==== Sys2Proof/Laws/Pixels.lean ====
section
/-! SUPPORT. The laws of the pixel memory: a read after a write, the one form of the row storage kept by every operation, and
what each drawing operation leaves in each pixel. -/

namespace Sys2Proof.Machine

variable {c : Instance} {fb : List Nat}

/-! ### The form of the row storage (10_state R24) -/

theorem Memory.wf_iff : Memory.wf c fb = true ↔ fb.length = c.height ∧ ∀ row ∈ fb, row < 2 ^ c.width := by
  simp [Memory.wf]

theorem Memory.wf_length (h : Memory.wf c fb = true) : fb.length = c.height := (Memory.wf_iff.mp h).1

theorem Memory.wf_row (h : Memory.wf c fb = true) (y : Nat) : fb.getD y 0 < 2 ^ c.width := by
  rw [List.getD_eq_getElem?_getD]
  cases hy : fb[y]? with
  | none => simp
  | some r => simpa using (Memory.wf_iff.mp h).2 r (List.mem_of_getElem? hy)

theorem inFb_iff (x y : Int) : inFb c x y = true ↔ 0 ≤ x ∧ x < c.width ∧ 0 ≤ y ∧ y < c.height := by
  simp [inFb, and_assoc]

/-- A write of a pixel in a row of the buffer keeps the form. -/
theorem pixWrite_wf (h : Memory.wf c fb = true) {x : Nat} (hx : x < c.width) (y : Nat) (b : Bool) :
    Memory.wf c (pixWrite c.width fb x y b) = true := by
  rw [Memory.wf_iff] at *
  refine ⟨by simpa [pixWrite] using h.1, fun row hrow => ?_⟩
  rcases List.mem_or_eq_of_mem_set hrow with hr | rfl
  · exact h.2 row hr
  · exact putBit_lt b (Memory.wf_row (Memory.wf_iff.mpr h) y) (by omega)

theorem pixWriteClipped_wf (h : Memory.wf c fb = true) (x y : Int) (b : Bool) :
    Memory.wf c (pixWriteClipped c fb x y b) = true := by
  unfold pixWriteClipped
  split
  · rename_i hin
    rw [inFb_iff] at hin
    exact pixWrite_wf h (by omega) _ b
  · exact h

/-! ### Read after write (00_scope R16) -/

/-- Reading a pixel after writing one: the bit written there, the old value elsewhere. -/
theorem pixRead_pixWrite {x y x' y' : Nat} (hx : x < c.width) (hx' : x' < c.width) (hy : y < fb.length) (b : Bool) :
    pixRead c.width (pixWrite c.width fb x y b) x' y' = if x' = x ∧ y' = y then b else pixRead c.width fb x' y' := by
  unfold pixRead pixWrite
  by_cases h : y' = y
  · subst h
    have hx2 : c.width - x' - 1 = c.width - x - 1 ↔ x' = x := by omega
    simp [List.getD_eq_getElem?_getD, hy, hx2]
  · simp [List.getD_eq_getElem?_getD, List.getElem?_set_ne (Ne.symm h), h]

/-- The clipped read after a clipped write. -/
theorem pixOr_pixWriteClipped (h : Memory.wf c fb = true) (x y x' y' : Int) (b : Bool) :
    pixOr c (pixWriteClipped c fb x y b) x' y' =
      if inFb c x' y' = true ∧ x' = x ∧ y' = y then b else pixOr c fb x' y' := by
  have hl := Memory.wf_length h
  unfold pixWriteClipped pixOr
  by_cases hin' : inFb c x' y' = true
  · by_cases hin : inFb c x y = true
    · have h1 := (inFb_iff _ _).mp hin
      have h2 := (inFb_iff _ _).mp hin'
      rw [if_pos hin, pixRead_pixWrite (by omega) (by omega) (by omega)]
      have hxy : (x'.toNat = x.toNat ∧ y'.toNat = y.toNat) ↔ (x' = x ∧ y' = y) := by omega
      simp [hin', hxy]
    · have : ¬ (x' = x ∧ y' = y) := by rintro ⟨rfl, rfl⟩; exact hin hin'
      simp [hin, this]
  · simp [hin']

/-! ### Rectangles -/

/-- A row of a write: the pixels it covers hold the source bits, every other pixel its old value (41_framebuffer R131). -/
theorem writeRow_spec (h : Memory.wf c fb = true) (x0 w y : Int) (bits : Nat) :
    Memory.wf c (writeRow c x0 w y bits fb) = true ∧
    ∀ x' y' : Int, pixOr c (writeRow c x0 w y bits fb) x' y' =
      if inFb c x' y' = true ∧ y' = y ∧ x0 ≤ x' ∧ x' < x0 + w then bits.testBit (x0 + w - 1 - x').toNat
      else pixOr c fb x' y' := by
  suffices H : ∀ n : Nat, (n : Int) ≤ max w 0 →
      Memory.wf c ((List.range n).foldl
        (fun fb (b : Nat) => pixWriteClipped c fb (x0 + w - 1 - (b : Int)) y (bits.testBit b)) fb) = true ∧
      ∀ x' y' : Int, pixOr c ((List.range n).foldl
        (fun fb (b : Nat) => pixWriteClipped c fb (x0 + w - 1 - (b : Int)) y (bits.testBit b)) fb) x' y' =
        if inFb c x' y' = true ∧ y' = y ∧ x0 + w - n ≤ x' ∧ x' < x0 + w then bits.testBit (x0 + w - 1 - x').toNat
        else pixOr c fb x' y' by
    have h0 := H w.toNat (by omega)
    refine ⟨h0.1, fun x' y' => ?_⟩
    rw [writeRow, h0.2]
    have hiff : (x0 + w - (w.toNat : Int) ≤ x' ∧ x' < x0 + w) ↔ (x0 ≤ x' ∧ x' < x0 + w) := by omega
    simp only [hiff]
  intro n
  induction n with
  | zero =>
    intro _
    refine ⟨h, fun x' y' => ?_⟩
    rw [if_neg (by omega)]
    rfl
  | succ n ih =>
    intro hn
    obtain ⟨hwf, hpix⟩ := ih (by omega)
    rw [List.range_succ, List.foldl_append, List.foldl_cons, List.foldl_nil]
    refine ⟨pixWriteClipped_wf hwf _ _ _, fun x' y' => ?_⟩
    rw [pixOr_pixWriteClipped hwf, hpix]
    by_cases hx : x' = x0 + w - 1 - (n : Int)
    · by_cases hy : inFb c x' y' = true ∧ y' = y
      · have hb : (x0 + w - 1 - x').toNat = n := by omega
        rw [if_pos ⟨hy.1, hx, hy.2⟩, if_pos ⟨hy.1, hy.2, by omega, by omega⟩, hb]
      · rw [if_neg (by tauto), if_neg (by tauto), if_neg (by tauto)]
    · rw [if_neg (by tauto)]
      have hiff : (x0 + w - ((n + 1 : Nat) : Int) ≤ x' ∧ x' < x0 + w) ↔ (x0 + w - (n : Int) ≤ x' ∧ x' < x0 + w) := by omega
      simp only [hiff]

/-- The rectangle test is exact: a pixel of the buffer inside the rectangle means it overlaps (41_framebuffer R131). -/
theorem missesFb_outside {x0 y0 w h x y : Int} (hm : missesFb c x0 y0 w h = true) (hin : inFb c x y = true) :
    ¬ (x0 ≤ x ∧ x < x0 + w ∧ y0 ≤ y ∧ y < y0 + h) := by
  rw [inFb_iff] at hin
  simp only [missesFb, Bool.or_eq_true, decide_eq_true_eq] at hm
  omega

/-- A write: the visible pixels of the rectangle hold the source bits, every other pixel its old value; the form is kept
(41_framebuffer R131). -/
theorem fbWritten_spec (h : Memory.wf c fb = true) (sz : Nat) (x0 y0 wd ht : Int) (rows : List Nat) :
    Memory.wf c (fbWritten c sz x0 y0 wd ht rows fb) = true ∧
    ∀ x y : Int, pixOr c (fbWritten c sz x0 y0 wd ht rows fb) x y =
      if inFb c x y = true ∧ x0 ≤ x ∧ x < x0 + min wd sz ∧ y0 ≤ y ∧ y < y0 + ht then
        (rows.getD (y - y0).toNat 0).testBit (x0 + min wd sz - 1 - x).toNat
      else pixOr c fb x y := by
  by_cases hm : missesFb c x0 y0 (min wd sz) ht = true
  · have he : fbWritten c sz x0 y0 wd ht rows fb = fb := by simp [fbWritten, hm]
    rw [he]
    refine ⟨h, fun x y => ?_⟩
    rw [if_neg]
    rintro ⟨hin, hr⟩
    exact missesFb_outside hm hin (by omega)
  · have he : fbWritten c sz x0 y0 wd ht rows fb = (List.range ht.toNat).foldl
        (fun fb (r : Nat) => writeRow c x0 (min wd sz) (y0 + (r : Int)) (rows.getD r 0) fb) fb := by simp [fbWritten, hm]
    rw [he]
    suffices H : ∀ n : Nat, (n : Int) ≤ max ht 0 →
        Memory.wf c ((List.range n).foldl
          (fun fb (r : Nat) => writeRow c x0 (min wd sz) (y0 + (r : Int)) (rows.getD r 0) fb) fb) = true ∧
        ∀ x y : Int, pixOr c ((List.range n).foldl
          (fun fb (r : Nat) => writeRow c x0 (min wd sz) (y0 + (r : Int)) (rows.getD r 0) fb) fb) x y =
          if inFb c x y = true ∧ x0 ≤ x ∧ x < x0 + min wd sz ∧ y0 ≤ y ∧ y < y0 + n then
            (rows.getD (y - y0).toNat 0).testBit (x0 + min wd sz - 1 - x).toNat
          else pixOr c fb x y by
      have h0 := H ht.toNat (by omega)
      refine ⟨h0.1, fun x y => ?_⟩
      rw [h0.2]
      have hiff : (y0 ≤ y ∧ y < y0 + (ht.toNat : Int)) ↔ (y0 ≤ y ∧ y < y0 + ht) := by omega
      simp only [hiff]
    intro n
    induction n with
    | zero =>
      intro _
      refine ⟨h, fun x y => ?_⟩
      rw [if_neg (by omega)]
      rfl
    | succ n ih =>
      intro hn
      obtain ⟨hwf, hpix⟩ := ih (by omega)
      rw [List.range_succ, List.foldl_append, List.foldl_cons, List.foldl_nil]
      obtain ⟨hwf', hpix'⟩ := writeRow_spec hwf x0 (min wd sz) (y0 + (n : Int)) (rows.getD n 0)
      refine ⟨hwf', fun x y => ?_⟩
      rw [hpix', hpix]
      by_cases hy : y = y0 + (n : Int)
      · by_cases hx : inFb c x y = true ∧ x0 ≤ x ∧ x < x0 + min wd sz
        · have hr : (y - y0).toNat = n := by omega
          rw [if_pos ⟨hx.1, hy, hx.2.1, hx.2.2⟩, if_pos ⟨hx.1, hx.2.1, hx.2.2, by omega, by omega⟩, hr]
        · rw [if_neg (by tauto), if_neg (by tauto), if_neg (by tauto)]
      · rw [if_neg (by tauto)]
        have hiff : (y0 ≤ y ∧ y < y0 + ((n + 1 : Nat) : Int)) ↔ (y0 ≤ y ∧ y < y0 + (n : Int)) := by omega
        simp only [hiff]

theorem mem_intRange {lo hi x : Int} : x ∈ intRange lo hi ↔ lo ≤ x ∧ x < hi := by
  simp only [intRange, List.mem_map, List.mem_range]
  constructor
  · rintro ⟨k, hk, rfl⟩; omega
  · rintro ⟨h1, h2⟩; exact ⟨(x - lo).toNat, by omega, by omega⟩

/-- Clearing some pixels of one row of the buffer. -/
theorem clearRow_spec (xs : List Int) (y : Int) (h : Memory.wf c fb = true) (hxs : ∀ x ∈ xs, inFb c x y = true) :
    Memory.wf c (xs.foldl (fun fb x => pixWrite c.width fb x.toNat y.toNat false) fb) = true ∧
    ∀ x' y' : Int, pixOr c (xs.foldl (fun fb x => pixWrite c.width fb x.toNat y.toNat false) fb) x' y' =
      if x' ∈ xs ∧ y' = y then false else pixOr c fb x' y' := by
  induction xs generalizing fb with
  | nil => exact ⟨h, fun x' y' => by simp⟩
  | cons x xs ih =>
    have hin : inFb c x y = true := hxs x (by simp)
    have hclip : pixWrite c.width fb x.toNat y.toNat false = pixWriteClipped c fb x y false := by
      simp [pixWriteClipped, hin]
    have hwf : Memory.wf c (pixWrite c.width fb x.toNat y.toNat false) = true := by
      rw [hclip]; exact pixWriteClipped_wf h _ _ _
    obtain ⟨h1, h2⟩ := ih hwf (fun x' hx' => hxs x' (by simp [hx']))
    refine ⟨h1, fun x' y' => ?_⟩
    rw [List.foldl_cons, h2, hclip, pixOr_pixWriteClipped h]
    by_cases hmem : x' ∈ xs ∧ y' = y
    · rw [if_pos hmem, if_pos ⟨by simp [hmem.1], hmem.2⟩]
    · rw [if_neg hmem]
      by_cases hx : x' = x ∧ y' = y
      · obtain ⟨rfl, rfl⟩ := hx
        simp [hin]
      · rw [if_neg (by tauto), if_neg]
        rintro ⟨hm, hy⟩
        rcases List.mem_cons.mp hm with rfl | hm
        · exact hx ⟨rfl, hy⟩
        · exact hmem ⟨hm, hy⟩

/-- A clear: the visible pixels of the rectangle are 0, every other pixel has its old value; the form is kept
(41_framebuffer R134). -/
theorem fbCleared_spec (h : Memory.wf c fb = true) (x0 y0 wd ht : Int) :
    Memory.wf c (fbCleared c x0 y0 wd ht fb) = true ∧
    ∀ x y : Int, pixOr c (fbCleared c x0 y0 wd ht fb) x y =
      if x0 ≤ x ∧ x < x0 + wd ∧ y0 ≤ y ∧ y < y0 + ht then false else pixOr c fb x y := by
  by_cases hm : missesFb c x0 y0 wd ht = true
  · have he : fbCleared c x0 y0 wd ht fb = fb := by simp [fbCleared, hm]
    rw [he]
    refine ⟨h, fun x y => ?_⟩
    split
    · rename_i hr
      by_cases hin : inFb c x y = true
      · exact absurd hr (missesFb_outside hm hin)
      · simp [pixOr, hin]
    · rfl
  · have he : fbCleared c x0 y0 wd ht fb = (intRange (max y0 0) (min (y0 + ht) c.height)).foldl (fun fb y =>
        (intRange (max x0 0) (min (x0 + wd) c.width)).foldl (fun fb x => pixWrite c.width fb x.toNat y.toNat false) fb) fb := by
      simp [fbCleared, hm]
    rw [he]
    suffices H : ∀ (ys : List Int) (g : List Nat), Memory.wf c g = true → (∀ y ∈ ys, 0 ≤ y ∧ y < c.height) →
        Memory.wf c (ys.foldl (fun fb y => (intRange (max x0 0) (min (x0 + wd) c.width)).foldl
          (fun fb x => pixWrite c.width fb x.toNat y.toNat false) fb) g) = true ∧
        ∀ x y : Int, pixOr c (ys.foldl (fun fb y => (intRange (max x0 0) (min (x0 + wd) c.width)).foldl
          (fun fb x => pixWrite c.width fb x.toNat y.toNat false) fb) g) x y =
          if x ∈ intRange (max x0 0) (min (x0 + wd) c.width) ∧ y ∈ ys then false else pixOr c g x y by
      obtain ⟨h1, h2⟩ := H (intRange (max y0 0) (min (y0 + ht) c.height)) fb h
        (fun y hy => by rw [mem_intRange] at hy; omega)
      refine ⟨h1, fun x y => ?_⟩
      rw [h2]
      simp only [mem_intRange]
      by_cases hin : inFb c x y = true
      · rw [inFb_iff] at hin
        have hiff : ((max x0 0 ≤ x ∧ x < min (x0 + wd) c.width) ∧ max y0 0 ≤ y ∧ y < min (y0 + ht) c.height) ↔
            (x0 ≤ x ∧ x < x0 + wd ∧ y0 ≤ y ∧ y < y0 + ht) := by omega
        simp only [hiff]
      · simp [pixOr, hin]
    intro ys
    induction ys with
    | nil => exact fun g hg _ => ⟨hg, fun x y => by simp⟩
    | cons y ys ih =>
      intro g hg hys
      have hy := hys y (by simp)
      obtain ⟨h1, h2⟩ := clearRow_spec (intRange (max x0 0) (min (x0 + wd) c.width)) y hg
        (fun x hx => by rw [mem_intRange] at hx; rw [inFb_iff]; omega)
      obtain ⟨h3, h4⟩ := ih _ h1 (fun y' hy' => hys y' (by simp [hy']))
      refine ⟨h3, fun x' y' => ?_⟩
      rw [List.foldl_cons, h4, h2]
      by_cases hx : x' ∈ intRange (max x0 0) (min (x0 + wd) c.width)
      · by_cases hy1 : y' ∈ ys
        · simp [hx, hy1]
        · by_cases hy2 : y' = y <;> simp [hx, hy1, hy2]
      · simp [hx]

/-- The whole buffer at 0 (41_framebuffer R136). -/
theorem cleared_wf : Memory.wf c (List.replicate c.height 0) = true := by
  rw [Memory.wf_iff]
  refine ⟨by simp, fun row hrow => ?_⟩
  rw [List.eq_of_mem_replicate hrow]
  exact Nat.two_pow_pos _

/-- The content of a reset has the form, whatever it is (10_state R37). -/
theorem fbInit_wf (draw : Nat) : Memory.wf c (State.fbInit c draw) = true := by
  rw [Memory.wf_iff]
  refine ⟨by simp [State.fbInit], fun row hrow => ?_⟩
  simp only [State.fbInit, List.mem_map] at hrow
  obtain ⟨y, _, rfl⟩ := hrow
  exact Nat.mod_lt _ (Nat.two_pow_pos _)

/-- The bits of an extracted byte, horizontal (41_framebuffer R140). -/
theorem getLsbD_extH (x y : Int) (rev : Bool) {i : Nat} (hi : i < 8) :
    (extH c fb x y rev).getLsbD i = if rev then pixOr c fb (x + i) y else pixOr c fb (x + 7 - i) y := by
  have h1 : x + 7 - ((7 - i : Nat) : Int) = x + i := by omega
  have h2 : 7 - i < 8 := by omega
  rw [extH, BitVec.getLsbD_ofNat]
  cases rev <;> simp [hi, h1, h2]

/-- The bits of an extracted byte, vertical (41_framebuffer R141). -/
theorem getLsbD_extV (x y : Int) (rev : Bool) {i : Nat} (hi : i < 8) :
    (extV c fb x y rev).getLsbD i = if rev then pixOr c fb x (y + i) else pixOr c fb x (y + 7 - i) := by
  have h1 : y + 7 - ((7 - i : Nat) : Int) = y + i := by omega
  have h2 : 7 - i < 8 := by omega
  rw [extV, BitVec.getLsbD_ofNat]
  cases rev <;> simp [hi, h1, h2]

/-- A bit of a row is a pixel (10_state R24). -/
theorem testBit_row (fb : List Nat) {y j : Nat} (hy : y < c.height) (hj : j < c.width) :
    (fb.getD y 0).testBit j = pixOr c fb ((c.width - 1 - j : Nat) : Int) (y : Int) := by
  have hin : inFb c ((c.width - 1 - j : Nat) : Int) (y : Int) = true := by rw [inFb_iff]; omega
  simp only [pixOr, hin, pixRead, Bool.true_and, Int.toNat_natCast]
  congr 1; omega

/-- Buffers of the right form with equal pixels are equal. -/
theorem fb_ext {f g : List Nat} (hf : Memory.wf c f = true) (hg : Memory.wf c g = true)
    (h : ∀ x y : Int, pixOr c f x y = pixOr c g x y) : f = g := by
  have lf := Memory.wf_length hf
  have lg := Memory.wf_length hg
  apply List.ext_getElem (by omega)
  intro y h1 h2
  have e : f.getD y 0 = g.getD y 0 := by
    apply Nat.eq_of_testBit_eq
    intro j
    by_cases hj : j < c.width
    · rw [testBit_row f (by omega) hj, testBit_row g (by omega) hj, h]
    · rw [testBit_eq_false_of_lt (Memory.wf_row hf y) (by omega), testBit_eq_false_of_lt (Memory.wf_row hg y) (by omega)]
  simpa [List.getD_eq_getElem?_getD, h1, h2] using e


end Sys2Proof.Machine
end

