-- ==== Sys2Proof/Laws/Step.lean ====
section
/-! SUPPORT. Everything an instruction and a step can do, said once; later proofs split on these instead of unfolding `exec`
and `step`. -/

namespace Sys2Proof.Machine

/-- The frame buffers a drawing instruction may leave: the row storage keeps its form. -/
def Drawn (s : State) (g : List Nat) : Prop := Memory.wf s.cfg s.fb = true → Memory.wf s.cfg g = true

/-- The seven shapes of an instruction's effect. -/
inductive Effect (s : State) : State → Prop where
  | answered (ws : List Word) : Effect s (s.ok ws)
  | drawn (g : List Nat) (h : Drawn s g) : Effect s ({ s with fb := g }.ok [])
  | driven (ts : List Transaction) (h : ∀ t ∈ ts, t.length = s.cfg.n) : Effect s (s.drive ts)
  | faulted (op : Byte) (c : Cause) : Effect s (s.takeFault op c)
  | latched (r : DevReg) (b : Byte) : Effect s (s.devWrite s.latchDev r b)
  | unchanged : Effect s s

/-- Every instruction completes, and its effect has one of the shapes. -/
theorem exec_effect (i : Instr) (s : State) : ∃ t, exec i s = .next t ∧ Effect s t := by
  cases i with
  | brSet v n start len val =>
    simp only [exec, execBrSet]
    split
    · exact ⟨_, rfl, .faulted _ _⟩
    · exact ⟨_, rfl, .answered _⟩
  | brFlip n start len val =>
    simp only [exec, execBrFlip]
    split
    · exact ⟨_, rfl, .faulted _ _⟩
    · exact ⟨_, rfl, .answered _⟩
  | brExtract n m start val =>
    simp only [exec, execBrExtract]
    split
    · exact ⟨_, rfl, .faulted _ _⟩
    · exact ⟨_, rfl, .answered _⟩
  | brReverse n val => exact ⟨_, rfl, .answered _⟩
  | fbWrite e x y wd ht rows => exact ⟨_, rfl, .drawn _ fun h => (fbWritten_spec h _ _ _ _ _ _).1⟩
  | fbClear x y wd ht => exact ⟨_, rfl, .drawn _ fun h => (fbCleared_spec h _ _ _ _).1⟩
  | fbClearAll => exact ⟨_, rfl, .drawn _ fun _ => cleared_wf⟩
  | fbTurnDot on x y => exact ⟨_, rfl, .drawn _ fun h => pixWriteClipped_wf h _ _ _⟩
  | fbExtH rev x y => exact ⟨_, rfl, .answered _⟩
  | fbExtV rev x y => exact ⟨_, rfl, .answered _⟩
  | fbWidth => exact ⟨_, rfl, .answered _⟩
  | fbHeight => exact ⟨_, rfl, .answered _⟩
  | ddInit => exact ⟨_, rfl, .driven _ (full_initAll _)⟩
  | ddBcast a d => exact ⟨_, rfl, .driven _ (by simp)⟩
  | ddSend => exact ⟨_, rfl, .driven _ (full_sendAll _ _)⟩
  | ddIntensity v =>
    simp only [exec, execDdIntensity]
    split
    · exact ⟨_, rfl, .faulted _ _⟩
    · exact ⟨_, rfl, .driven _ (by simp)⟩
  | ddIntensityPd vs =>
    simp only [exec, execDdIntensityPd]
    split
    · exact ⟨_, rfl, .faulted _ _⟩
    · rename_i hl
      split
      · exact ⟨_, rfl, .faulted _ _⟩
      · exact ⟨_, rfl, .driven _ (by simpa using hl)⟩
  | ddShutdown on => exact ⟨_, rfl, .driven _ (by simp)⟩
  | ddTest on => exact ⟨_, rfl, .driven _ (by simp)⟩
  | ddClear => exact ⟨_, rfl, .driven _ (full_clearAllDigits _)⟩
  | wireNoop d => exact ⟨_, rfl, .unchanged⟩
  | wireRow0 d => exact ⟨_, rfl, .latched _ _⟩
  | wireRow1 d => exact ⟨_, rfl, .latched _ _⟩
  | wireRow2 d => exact ⟨_, rfl, .latched _ _⟩
  | wireRow3 d => exact ⟨_, rfl, .latched _ _⟩
  | wireRow4 d => exact ⟨_, rfl, .latched _ _⟩
  | wireRow5 d => exact ⟨_, rfl, .latched _ _⟩
  | wireRow6 d => exact ⟨_, rfl, .latched _ _⟩
  | wireRow7 d => exact ⟨_, rfl, .latched _ _⟩
  | wireDecode d => exact ⟨_, rfl, .latched _ _⟩
  | wireIntensity d => exact ⟨_, rfl, .latched _ _⟩
  | wireScanLimit d => exact ⟨_, rfl, .latched _ _⟩
  | wireShutdown d => exact ⟨_, rfl, .latched _ _⟩
  | wireTest d => exact ⟨_, rfl, .latched _ _⟩

/-- What a step can be. -/
inductive Stepped (s : State) : State → Prop where
  | waited (hw : s.wireIn = []) (hc : s.cmdIn = []) : Stepped s s
  | reset (rest : List HostInput) (hw : s.wireIn = []) (hc : s.cmdIn = .rst :: rest) :
      Stepped s { s with cmdIn := rest }.blockReset
  | turnedAway (f : CmdFrame) (rest : List HostInput) (hw : s.wireIn = []) (hc : s.cmdIn = .frame f :: rest)
      (hh : s.halted = true) : Stepped s ({ s with cmdIn := rest }.respond .halted)
  | malformed (f : CmdFrame) (c : Cause) (rest : List HostInput) (hw : s.wireIn = []) (hc : s.cmdIn = .frame f :: rest)
      (hh : s.halted = false) (hd : decodeCmd f = .error c) :
      Stepped s ({ s with cmdIn := rest }.takeFault (hdrOp f.header) c)
  | command (f : CmdFrame) (i : Instr) (rest : List HostInput) (t : State) (hw : s.wireIn = [])
      (hc : s.cmdIn = .frame f :: rest) (hh : s.halted = false) (hd : decodeCmd f = .ok i)
      (ht : exec i { s with cmdIn := rest } = .next t) : Stepped s t
  | wire (k : Nat) (f : Frame) (i : Instr) (rest : List (Nat × Frame)) (t : State) (hw : s.wireIn = (k, f) :: rest)
      (hk : k < s.cfg.n) (hd : decodeWire f = some i)
      (ht : exec i { s with wireIn := rest, latchDev := k } = .next t) : Stepped s t
  | unassigned (k : Nat) (f : Frame) (rest : List (Nat × Frame)) (hw : s.wireIn = (k, f) :: rest) (hk : k < s.cfg.n)
      (hd : decodeWire f = none) : Stepped s ({ s with wireIn := rest }.devForget k)

/-- Every next state of a step is one of them. -/
theorem step_cases {s t : State} (h : step s = .next t) : Stepped s t := by
  unfold step fetch at h
  split at h
  · rename_i i u hf
    split at hf
    · rename_i k f rest hw
      unfold fetchWire at hf
      split at hf
      · rename_i hk
        split at hf
        · rename_i j hd
          cases hf
          exact .wire k f _ rest t hw hk hd h
        · cases hf
      · cases hf
    · rename_i f rest hw hc
      unfold fetchFrame at hf
      split at hf
      · cases hf
      · rename_i hh
        split at hf
        · rename_i j hd
          cases hf
          exact .command f _ rest t hw hc (by simpa [State.halted] using hh) hd h
        · cases hf
    · cases hf
    · cases hf
  · rename_i u hf
    cases h
    split at hf
    · rename_i k f rest hw
      unfold fetchWire at hf
      split at hf
      · rename_i hk
        split at hf
        · cases hf
        · rename_i hd
          cases hf
          exact .unassigned k f rest hw hk hd
      · cases hf
    · rename_i f rest hw hc
      unfold fetchFrame at hf
      split at hf
      · rename_i hh
        cases hf
        exact .turnedAway f rest hw hc hh
      · rename_i hh
        split at hf
        · cases hf
        · rename_i c hd
          cases hf
          exact .malformed f c rest hw hc (by simpa [State.halted] using hh) hd
    · rename_i rest hw hc
      cases hf
      exact .reset rest hw hc
    · rename_i hw hc
      cases hf
      exact .waited hw hc
  · cases h

/-- `HALTED` and `FAULT.V` are one bit (10_state R28). -/
theorem halted_eq_faultV (s : State) : s.halted = faultV s.fault := rfl

end Sys2Proof.Machine
end

