-- ==== Sys2Proof/Tests/Slice0.lean ====
section
/-! SUPPORT. Tests of the model and witnesses for the statements. The expected values of every test are those of
`spec/95_test_vectors.md` or of the rule named, worked out there by the spec, not by the model. -/

namespace Sys2Proof.Tests

open Sys2Proof Sys2Proof.Machine

/-! ### Small states -/

/-- Device registers all 0. -/
def regs0 : DevRegs := ⟨0, 0, 0, 0, 0, 0, 0, 0, 0, 0, 0, 0, 0⟩

/-- A state with the given configuration and rows, the bus idle, nothing sent, nothing queued. -/
def mk (c : Instance) (rows : List Nat) : State :=
  ⟨c, rows, 0, true, false, false, [], List.replicate c.n regs0, [], [], [], 0, 1⟩

/-- One unrotated device at the origin. -/
def dev1 : List Descriptor := [⟨0, 0, .deg0, false⟩]

/-- The 32 by 16 buffer of the spec's vectors, row 0 given, the others 0. -/
def wide (row0 : Nat) : State := mk ⟨32, 16, dev1⟩ (row0 :: List.replicate 15 0)

/-- Program P4's configuration: two modules on a 16 by 8 buffer. -/
def p4 : State := mk ⟨16, 8, [⟨0, 0, .cw90, false⟩, ⟨8, 0, .deg0, true⟩]⟩ [0x8001, 0x4002, 0, 0, 0, 0, 0, 0]

/-- A halted block. -/
def halted : State := { wide 0 with fault := 0x80020010 }

/-- A field of the next state. -/
def after {α : Type} (o : Host.Outcome State Fault Refusal) (f : State → α) : Option α :=
  match o with
  | .next t => some (f t)
  | .fault _ => none
  | .refused _ => none

/-- The state with one frame on the CMD port. -/
def given (s : State) (h : Word) (ws : List Word) : State := { s with cmdIn := [.frame ⟨h, ws⟩] }

/-! ### Well-formedness refuses each ill-formed term -/

theorem test_wf_width_zero : ¬ WellFormed (.brSet true 0 0 0 0) := by decide
theorem test_wf_value_too_wide : ¬ WellFormed (.brFlip 8 0 1 256) := by decide
theorem test_wf_result_width_zero : ¬ WellFormed (.brExtract 8 0 0 1) := by decide
theorem test_wf_extract_value_too_wide : ¬ WellFormed (.brExtract 8 8 0 256) := by decide
theorem test_wf_reverse_value_too_wide : ¬ WellFormed (.brReverse 5 32) := by decide
theorem test_wf_row_count : ¬ WellFormed (.fbWrite .w8 0 0 8 2 [0xFF]) := by decide
theorem test_wf_negative_height_with_a_row : ¬ WellFormed (.fbWrite .w8 0 0 8 0xFFFFFFFF [1]) := by decide
theorem test_wf_row_too_wide : ¬ WellFormed (.fbWrite .w8 0 0 8 1 [0x100]) := by decide
theorem test_wf_list_too_long (vs : List Word) (h : 2 ^ 32 ≤ vs.length) : ¬ WellFormed (.ddIntensityPd vs) := by
  simp only [WellFormed, Instr.wf, decide_eq_true_eq]
  omega

/-! ### Words written out from the spec's encodings (30_encoding R71, R78, R81, R87) -/

theorem test_decode_brSet : decodeCmd ⟨0x01800800, [2, 3, 0]⟩ = .ok (.brSet true 8 2 3 0) := by rfl
theorem test_decode_brFlip : decodeCmd ⟨0x02000800, [8, 1, 0]⟩ = .ok (.brFlip 8 8 1 0) := by rfl
theorem test_decode_brExtract : decodeCmd ⟨0x03002008, [0x1C, 0x12345678]⟩ = .ok (.brExtract 32 8 28 0x12345678) := by rfl
theorem test_decode_brReverse : decodeCmd ⟨0x04002800, [1, 0]⟩ = .ok (.brReverse 40 1) := by rfl
theorem test_decode_fbWrite :
    decodeCmd ⟨0x10000008, [0xFFFFFFFD, 0, 8, 1, 0xFF]⟩ = .ok (.fbWrite .w8 0xFFFFFFFD 0 8 1 [0xFF]) := by rfl
theorem test_decode_fbWrite_64 :
    decodeCmd ⟨0x10000040, [0, 0, 64, 1, 0x00000002, 0x00000001]⟩ = .ok (.fbWrite .w64 0 0 64 1 [0x100000002]) := by rfl
theorem test_decode_fbClear : decodeCmd ⟨0x11000000, [0xFFFFFFFE, 0, 5, 1]⟩ = .ok (.fbClear 0xFFFFFFFE 0 5 1) := by rfl
theorem test_decode_fbClearAll : decodeCmd ⟨0x12000000, []⟩ = .ok .fbClearAll := by rfl
theorem test_decode_fbTurnDot : decodeCmd ⟨0x13800000, [3, 4]⟩ = .ok (.fbTurnDot true 3 4) := by rfl
theorem test_decode_fbExtH : decodeCmd ⟨0x14000000, [100, 0]⟩ = .ok (.fbExtH false 100 0) := by rfl
theorem test_decode_fbExtV : decodeCmd ⟨0x15800000, [4, 0]⟩ = .ok (.fbExtV true 4 0) := by rfl
theorem test_decode_fbWidth : decodeCmd ⟨0x16000000, []⟩ = .ok .fbWidth := by rfl
theorem test_decode_fbHeight : decodeCmd ⟨0x17000000, []⟩ = .ok .fbHeight := by rfl
theorem test_decode_ddInit : decodeCmd ⟨0x20000000, []⟩ = .ok .ddInit := by rfl
theorem test_decode_ddBcast : decodeCmd ⟨0x21000000, [0x0A07]⟩ = .ok (.ddBcast 10 7) := by rfl
theorem test_decode_ddSend : decodeCmd ⟨0x22000000, []⟩ = .ok .ddSend := by rfl
theorem test_decode_ddIntensity : decodeCmd ⟨0x23000000, [15]⟩ = .ok (.ddIntensity 15) := by rfl
theorem test_decode_ddIntensityPd : decodeCmd ⟨0x24000000, [2, 3, 9]⟩ = .ok (.ddIntensityPd [3, 9]) := by rfl
theorem test_decode_ddShutdown : decodeCmd ⟨0x25800000, []⟩ = .ok (.ddShutdown true) := by rfl
theorem test_decode_ddTest : decodeCmd ⟨0x26000000, []⟩ = .ok (.ddTest false) := by rfl
theorem test_decode_ddClear : decodeCmd ⟨0x27000000, []⟩ = .ok .ddClear := by rfl
theorem test_decode_wire :
    [0x00AA, 0x0101, 0x0202, 0x0303, 0x0404, 0x0505, 0x0606, 0x0707, 0x0880, 0x0900, 0x0A0F, 0x0B07, 0x0C01, 0x0F01,
      0x0D00, 0x0E00, 0x1A07].map decodeWire =
    [some (.wireNoop 0xAA), some (.wireRow0 1), some (.wireRow1 2), some (.wireRow2 3), some (.wireRow3 4),
      some (.wireRow4 5), some (.wireRow5 6), some (.wireRow6 7), some (.wireRow7 0x80), some (.wireDecode 0),
      some (.wireIntensity 15), some (.wireScanLimit 7), some (.wireShutdown 1), some (.wireTest 1), none, none, none] := by
  decide
theorem test_table_word : decodeTableWord 32 0x14800000 = some (.fbExtH true 0 0) ∧
    decodeTableWord 16 0x0F01 = some (.wireTest 1) ∧ decodeTableWord 32 0x10000008 = some (.fbWrite .w8 0 0 0 0 []) := by
  decide

/-! ### Faults (95_test_vectors section 5) -/

theorem test_fault_illegal_first : after (step (given (wide 0) 0x00400000 [0])) (·.fault) = some 0x80000001 := by decide
theorem test_fault_header_before_length : after (step (given (wide 0) 0x12400000 [0])) (·.fault) = some 0x80120002 := by decide
theorem test_fault_elem_width : after (step (given (wide 0) 0x10000007 [0, 0, 8, 1, 0xFF])) (·.fault) = some 0x80100002 := by
  decide
theorem test_fault_missing_row : after (step (given (wide 0) 0x10000008 [0, 0, 8, 2, 0xFF])) (·.fault) = some 0x80100003 := by
  decide
theorem test_fault_padding : after (step (given (wide 0) 0x04000800 [0x100])) (·.fault) = some 0x80040002 := by decide
theorem test_fault_bcast_upper : after (step (given (wide 0) 0x21000000 [0x10A07])) (·.fault) = some 0x80210002 := by decide
theorem test_fault_response : after (step (given (wide 0) 0x05000000 [])) (fun t => (t.fault, t.resp, t.fb)) =
    some (0x80050001, [.fault], (wide 0).fb) := by decide
theorem test_halted_answer : after (step (given halted 0x12000000 [])) (fun t => (t.fault, t.resp)) =
    some (0x80020010, [.halted]) := by decide
theorem test_reset_leaves_halt : after (step { halted with cmdIn := [.rst] }) (fun t => (t.fault, t.busHist, t.resp)) =
    some (0, [], []) := by decide

/-! ### Bit-range unit (95_test_vectors section 2) -/

theorem test_brSet_set : after (exec (.brSet true 8 2 3 0x00) (wide 0)) (·.resp) = some [.ok [0x1C]] := by decide
theorem test_brSet_clear_truncates : after (exec (.brSet false 8 6 5 0xFF) (wide 0)) (·.resp) = some [.ok [0x3F]] := by decide
theorem test_brFlip_truncates : after (exec (.brFlip 16 12 8 0xFFFF) (wide 0)) (·.resp) = some [.ok [0x0FFF]] := by decide
theorem test_brFlip_start : after (exec (.brFlip 8 255 1 0) (wide 0)) (·.fault) = some 0x80020010 := by decide
theorem test_brExtract_zero_fill : after (exec (.brExtract 16 8 12 0xABCD) (wide 0)) (·.resp) = some [.ok [0x0A]] := by decide
theorem test_brExtract_across_words : after (exec (.brExtract 40 8 36 0xF000000000) (wide 0)) (·.resp) = some [.ok [0x0F]] := by
  decide
theorem test_brReverse_odd : after (exec (.brReverse 5 0x03) (wide 0)) (·.resp) = some [.ok [0x18]] := by decide
theorem test_brReverse_two_words : after (exec (.brReverse 40 1) (wide 0)) (·.resp) = some [.ok [0, 0x80]] := by decide

/-! ### Frame buffer (95_test_vectors sections 1 and 3) -/

theorem test_fbWrite_left_clip : after (exec (.fbWrite .w8 0xFFFFFFFD 0 8 1 [0xFF]) (wide 0)) (·.fb) =
    some (0xF8000000 :: List.replicate 15 0) := by decide
theorem test_fbWrite_two_rows : after (exec (.fbWrite .w16 10 3 12 2 [0xA5C3, 0x0F0F]) (wide 0)) (·.fb) =
    some ([0, 0, 0, 0x00170C00, 0x003C3C00] ++ List.replicate 11 0) := by decide
theorem test_fbClear_left_clip : after (exec (.fbClear 0xFFFFFFFE 0 5 1) (wide 0xFFFFFFFF)) (·.fb) =
    some (0x1FFFFFFF :: List.replicate 15 0) := by decide
theorem test_fbClear_right_clip : after (exec (.fbClear 30 0 100 1) (wide 0xFFFFFFFF)) (·.fb) =
    some (0xFFFFFFFC :: List.replicate 15 0) := by decide
theorem test_fbClearAll : after (exec .fbClearAll (wide 0x12345678)) (·.fb) = some (List.replicate 16 0) := by decide
theorem test_fbTurnDot_last : after (exec (.fbTurnDot true 31 15) (wide 0)) (·.fb) = some (List.replicate 15 0 ++ [1]) := by decide
theorem test_fbTurnDot_outside : after (exec (.fbTurnDot true 0xFFFFFFFF 0) (wide 0)) (·.fb) = some (List.replicate 16 0) := by
  decide
theorem test_fbExtH_negative : after (exec (.fbExtH false 0xFFFFFFFC 0) (wide 0x12345678)) (·.resp) = some [.ok [0x01]] := by decide
theorem test_fbExtH_reversed : after (exec (.fbExtH true 0 0) (wide 0x12345678)) (·.resp) = some [.ok [0x48]] := by decide
theorem test_fbExtV_bottom : after (exec (.fbExtV false 0 0) (wide 0x80000000)) (·.resp) = some [.ok [0x80]] := by decide
theorem test_fbExtV_reversed : after (exec (.fbExtV true 4 0) (wide 0xF8000000)) (·.resp) = some [.ok [0x01]] := by decide
theorem test_fbWidth : after (exec .fbWidth (wide 0)) (·.resp) = some [.ok [0x20]] := by decide
theorem test_fbHeight : after (exec .fbHeight (wide 0)) (·.resp) = some [.ok [0x10]] := by decide

/-! ### Display driver (95_test_vectors sections 4 and 6) -/

theorem test_ddInit : after (exec .ddInit p4) (·.busHist) =
    some [[0x0C00, 0x0C00], [0x0F00, 0x0F00], [0x0A0F, 0x0A0F], [0x0B07, 0x0B07], [0x0900, 0x0900]] := by decide
theorem test_ddBcast : after (exec (.ddBcast 10 7) p4) (·.busHist) = some [[0x0A07, 0x0A07]] := by decide
theorem test_ddSend_p4 : after (exec .ddSend p4) (·.busHist) =
    some [[0x0801, 0x0880], [0x0702, 0x0740], [0x0600, 0x0600], [0x0500, 0x0500], [0x0400, 0x0400], [0x0300, 0x0300],
      [0x0200, 0x0200], [0x0100, 0x0100]] := by decide
theorem test_ddSend_registers : after (exec .ddSend p4) (fun t => (t.devRead 0 .row7, t.devRead 1 .row6)) =
    some (some 0x01, some 0x40) := by decide
theorem test_ddIntensity_fault : after (exec (.ddIntensity 16) p4) (fun t => (t.fault, t.busHist)) = some (0x80230012, []) := by
  decide
theorem test_ddIntensity : after (exec (.ddIntensity 15) p4) (·.busHist) = some [[0x0A0F, 0x0A0F]] := by decide
theorem test_ddIntensityPd : after (exec (.ddIntensityPd [1, 9]) p4)
    (fun t => (t.busHist, t.devRead 0 .intensity, t.devRead 1 .intensity)) = some ([[0x0A01, 0x0A09]], some 1, some 9) := by decide
theorem test_ddIntensityPd_length_first : after (exec (.ddIntensityPd [3, 16, 1]) p4) (·.fault) = some 0x80240011 := by decide
theorem test_ddShutdown : after (exec (.ddShutdown false) (wide 0)) (·.busHist) = some [[0x0C01]] := by decide
theorem test_ddTest : after (exec (.ddTest true) (wide 0)) (·.busHist) = some [[0x0F01]] := by decide
theorem test_ddClear : after (exec .ddClear (wide 0)) (·.busHist) =
    some [[0x0100], [0x0200], [0x0300], [0x0400], [0x0500], [0x0600], [0x0700], [0x0800]] := by decide

/-- The pixel `(0, 0)` under the eight settings of E3: the first and the last frame. -/
theorem test_rotation_corners :
    [(Rotation.deg0, false), (.deg0, true), (.cw90, false), (.cw90, true), (.deg180, false), (.deg180, true), (.ccw90, false),
      (.ccw90, true)].map (fun p => ((sendAll ⟨8, 8, [⟨0, 0, p.1, p.2⟩]⟩ [0x80, 0, 0, 0, 0, 0, 0, 0]).flatten.filter
        (fun f => frameData f ≠ 0))) =
    [[0x0880], [0x0801], [0x0801], [0x0880], [0x0101], [0x0180], [0x0180], [0x0101]] := by decide

/-! ### Devices and pins -/

theorem test_wire_frames : ([.wireRow0 1, .wireRow1 2, .wireRow2 3, .wireRow3 4, .wireRow4 5, .wireRow5 6, .wireRow6 7, .wireRow7 8,
      .wireDecode 9, .wireIntensity 10, .wireScanLimit 11, .wireShutdown 12, .wireTest 15].map
      (fun i => after (exec i (wide 0)) (·.devreg))) =
    [⟨1, 0, 0, 0, 0, 0, 0, 0, 0, 0, 0, 0, 0⟩, ⟨0, 2, 0, 0, 0, 0, 0, 0, 0, 0, 0, 0, 0⟩, ⟨0, 0, 3, 0, 0, 0, 0, 0, 0, 0, 0, 0, 0⟩,
      ⟨0, 0, 0, 4, 0, 0, 0, 0, 0, 0, 0, 0, 0⟩, ⟨0, 0, 0, 0, 5, 0, 0, 0, 0, 0, 0, 0, 0⟩, ⟨0, 0, 0, 0, 0, 6, 0, 0, 0, 0, 0, 0, 0⟩,
      ⟨0, 0, 0, 0, 0, 0, 7, 0, 0, 0, 0, 0, 0⟩, ⟨0, 0, 0, 0, 0, 0, 0, 8, 0, 0, 0, 0, 0⟩, ⟨0, 0, 0, 0, 0, 0, 0, 0, 9, 0, 0, 0, 0⟩,
      ⟨0, 0, 0, 0, 0, 0, 0, 0, 0, 10, 0, 0, 0⟩, ⟨0, 0, 0, 0, 0, 0, 0, 0, 0, 0, 11, 0, 0⟩,
      ⟨0, 0, 0, 0, 0, 0, 0, 0, 0, 0, 0, 12, 0⟩, ⟨0, 0, 0, 0, 0, 0, 0, 0, 0, 0, 0, 0, 15⟩].map (fun d => some [d]) := by decide
theorem test_wire_noop : after (exec (.wireNoop 0x55) (wide 0)) (·.devreg) = some [regs0] := by decide

set_option maxRecDepth 20000 in
/-- The first frame sent ends in the farthest device (42_display_driver R190). -/
theorem test_chain : ((⟨true, false, false, [0xFFFF, 0x1234], []⟩ : Bus).run (wireForm [0x0A0B, 0x8001])).latched =
    [[0x0A0B, 0x8001]] := by decide
/-- One transaction to one device is 16 clock periods (70_reset_and_hazards R264). -/
theorem test_time : clockPeriods (wireForm [0x0A07]) = 16 := by decide
theorem test_pseudo_on : assemble (.pseudo .on []) = some (.ddShutdown false) := by decide

/-! ### Witnesses: the hypotheses of each statement are met together -/

theorem wide_inv : (wide 0x12345678).Inv :=
  ⟨by decide, by decide, .inl rfl, ⟨rfl, rfl⟩, (fun _ ht => nomatch ht), by decide⟩

theorem witness_StepRunsTheDecodedCommand :
    (given (wide 0) 0x12000000 []).wireIn = [] ∧ (given (wide 0) 0x12000000 []).cmdIn = [.frame ⟨0x12000000, []⟩] ∧
    faultV (given (wide 0) 0x12000000 []).fault = false ∧ decodeCmd ⟨0x12000000, []⟩ = .ok .fbClearAll :=
  ⟨rfl, rfl, by decide, rfl⟩

theorem witness_StepRunsTheLatchedWireFrame :
    let s : State := { wide 0 with wireIn := [(0, 0x0C01), (0, 0x0D00)] }
    s.wireIn = (0, 0x0C01) :: [(0, 0x0D00)] ∧ 0 < s.cfg.n ∧ decodeWire 0x0C01 = some (.wireShutdown 1) ∧ decodeWire 0x0D00 = none := by
  decide

theorem witness_MalformedCommandTakesItsFault :
    (given (wide 0) 0x05000000 []).wireIn = [] ∧ (given (wide 0) 0x05000000 []).cmdIn = [.frame ⟨0x05000000, []⟩] ∧
    faultV (given (wide 0) 0x05000000 []).fault = false ∧ decodeCmd ⟨0x05000000, []⟩ = .error .illegalOpcode :=
  ⟨rfl, rfl, by decide, rfl⟩

theorem witness_HaltedBlockOnlyAnswersHalted :
    (given halted 0x12000000 []).wireIn = [] ∧ (given halted 0x12000000 []).cmdIn = [.frame ⟨0x12000000, []⟩] ∧
    faultV (given halted 0x12000000 []).fault = true := ⟨rfl, rfl, by decide⟩

theorem witness_OnlyResetLeavesTheHaltedState :
    faultV halted.fault = true ∧ (∃ t, step (given halted 0x12000000 []) = .next t) ∧
    ∃ t, step { halted with cmdIn := [.rst] } = .next t := ⟨by decide, ⟨_, rfl⟩, ⟨_, rfl⟩⟩

theorem witness_FaultsArePreciseAndNameTheirCommand :
    faultV (given (wide 0) 0x02000800 [8, 1, 0]).fault = false ∧
    after (step (given (wide 0) 0x02000800 [8, 1, 0])) (fun t => faultV t.fault) = some true := by decide

theorem witness_WaitingBlockChangesNothing : (wide 0).wireIn = [] ∧ (wide 0).cmdIn = [] := ⟨rfl, rfl⟩

theorem witness_ResetLeavesTheStatedValues :
    ({ halted with cmdIn := [.rst] } : State).wireIn = [] ∧ ({ halted with cmdIn := [.rst] } : State).cmdIn = [.rst] :=
  ⟨rfl, rfl⟩

theorem witness_ResetStateSatisfiesTheInvariant : Instance.default.legal = true ∧ (⟨1, 2147483647, dev1⟩ : Instance).legal = true := by
  decide

theorem witness_EveryStepKeepsTheInvariant : (given (wide 0x12345678) 0x22000000 []).Inv ∧
    ∃ t, step (given (wide 0x12345678) 0x22000000 []) = .next t :=
  ⟨⟨wide_inv.cfgLegal, wide_inv.fbWf, wide_inv.faultReads, wide_inv.busIdle, wide_inv.histFull, wide_inv.devCount⟩, _, rfl⟩

theorem witness_NoStepChangesTheConfiguration : ∃ t, step (given (wide 0) 0x12000000 []) = .next t := ⟨_, rfl⟩

theorem witness_EveryCommandGetsExactlyOneResponse :
    (given (wide 0) 0x16000000 []).wireIn = [] ∧ (given (wide 0) 0x16000000 []).cmdIn = [.frame ⟨0x16000000, []⟩] := ⟨rfl, rfl⟩

theorem witness_OnlyDrawingCommandsTouchTheFrameBuffer :
    (∀ e x y wd ht rows, Instr.ddClear ≠ .fbWrite e x y wd ht rows) ∧ (∀ x y wd ht, Instr.ddClear ≠ .fbClear x y wd ht) ∧
    Instr.ddClear ≠ .fbClearAll ∧ (∀ on x y, Instr.ddClear ≠ .fbTurnDot on x y) ∧ (∀ rev x y, Instr.ddClear ≠ .fbExtH rev x y) ∧
    (∀ rev x y, Instr.ddClear ≠ .fbExtV rev x y) ∧ Instr.ddClear ≠ .ddSend ∧ ∃ t, exec .ddClear (wide 0) = .next t :=
  ⟨nofun, nofun, nofun, nofun, nofun, nofun, nofun, ⟨_, rfl⟩⟩

theorem witness_DriverTransactionsCarryOneFramePerDevice : after (exec .ddInit p4) (fun t => t.busHist ≠ []) = some True := by
  simp only [after, exec, execDdInit, State.drive_busHist]
  simp [initAll]

/-- The fault clause and the sending clause of a `DD.*` command. -/
theorem witness_DriverTransactions_clauses : (∃ v, Instr.ddIntensity 16 = .ddIntensity v) ∧
    after (exec (.ddIntensity 16) p4) (fun t => (faultV t.fault, t.busHist, t.fb)) = some (true, [], p4.fb) ∧
    after (exec (.ddIntensity 15) p4) (fun t => (t.fault, t.busHist.length, t.fb)) = some (p4.fault, 1, p4.fb) :=
  ⟨⟨16, rfl⟩, by decide, by decide⟩

theorem witness_DecodeOfEncodeIsTheInstruction :
    WellFormed (.brSet true 255 254 0xFFFFFFFF (2 ^ 255 - 1)) ∧ WellFormed (.fbWrite .w64 0 0 64 1 [2 ^ 64 - 1]) := by decide

theorem witness_EncodeOfDecodeIsTheCode : decode (.cmd ⟨0x04000800, [0xC0]⟩) = some (.brReverse 8 0xC0) ∧
    decode (.wire 0x0F01) = some (.wireTest 1) := by decide

theorem witness_HeaderIsLegalIffItMatchesItsRow : hdrOp 0x03002008 = Op.brExtract.code ∧ headerOk .brExtract 0x03002008 = true ∧
    0x03002008 &&& Op.brExtract.row.mask = Op.brExtract.row.matched ∧ 1 ≤ (hdrP 0x03002008).toNat ∧ 1 ≤ (hdrQ 0x03002008).toNat ∧
    (hdrQ 0x10000040).toNat = 64 ∧ headerOk .fbWrite 0x10000040 = true := by decide

theorem witness_UnassignedOpcodesAreIllegal :
    (given (wide 0) 0xFF000000 []).wireIn = [] ∧ (given (wide 0) 0xFF000000 []).cmdIn = [.frame ⟨0xFF000000, []⟩] ∧
    faultV (given (wide 0) 0xFF000000 []).fault = false ∧ decodeCmd ⟨0xFF000000, []⟩ = .error .illegalOpcode :=
  ⟨rfl, rfl, by decide, rfl⟩

theorem witness_FaultsAreReportedInPriorityOrder :
    opOf 0x05 = none ∧ opOf (hdrOp 0x12400000) = some .fbClearAll ∧ headerOk .fbClearAll 0x12400000 = false ∧
    headerOk .fbClearAll 0x12000000 = true ∧ frameLen .fbClearAll ⟨0x12000000, [0]⟩ ≠ some 2 ∧
    headerOk .brReverse 0x04000800 = true ∧ frameLen .brReverse ⟨0x04000800, [0x100]⟩ = some 2 ∧
    ([3] : List Word).length ≠ p4.cfg.n ∧ faultV p4.fault = false := by decide

theorem witness_FaultsAreReportedInPriorityOrder_padding : decodeCmd ⟨0x04000800, [0x100]⟩ = .error .reservedField := rfl

theorem witness_AcceptedFramesHaveTheirLength :
    decodeCmd ⟨0x10000008, [0, 0, 8, 0xFFFFFFFF]⟩ = .ok (.fbWrite .w8 0 0 8 0xFFFFFFFF []) := rfl

theorem witness_AssemblingALineGivesItsCommand :
    WellFormed (.fbWrite .w8 0xFFFFFFFD 0 8 1 [0xFF]) ∧
    encode (.fbWrite .w8 0xFFFFFFFD 0 8 1 [0xFF]) = .cmd ⟨0x10000008, [0xFFFFFFFD, 0, 8, 1, 0xFF]⟩ ∧
    WellFormed (.wireTest 1) ∧ encode (.wireTest 1) = .wire 0x0F01 := by decide

theorem test_disassemble : disassemble (.fbWrite .w8 0xFFFFFFFD 0 8 1 [0xFF]) =
    some (.core .fbWrite none [.num 8, .num (-3), .num 0, .num 8, .num 1, .list [255]]) := by decide

theorem witness_PseudoInstructionsExpand : 7 ≤ 7 ∧
    assemble (.pseudo .digit [.num 7, uNum 0x3C#8]) = some (.ddBcast 8 0x3C) := by decide

theorem witness_BrSetEditsTheRange : WellFormed (.brSet true 8 7 100 0) ∧ (7 : Word).toNat < (8 : Byte).toNat ∧
    WellFormed (.brSet true 8 8 1 0) ∧ (8 : Byte).toNat ≤ (8 : Word).toNat ∧ faultV (wide 0).fault = false := by decide

theorem witness_BrFlipInvertsTheRange : WellFormed (.brFlip 8 7 2 0xA5) ∧ (7 : Word).toNat < (8 : Byte).toNat ∧
    WellFormed (.brFlip 8 8 1 0) ∧ (8 : Byte).toNat ≤ (8 : Word).toNat ∧ faultV (wide 0).fault = false := by decide

theorem witness_BrExtractCopiesTheSubRange : WellFormed (.brExtract 16 8 15 0xABCD) ∧ (15 : Word).toNat < (16 : Byte).toNat ∧
    WellFormed (.brExtract 16 8 16 0xABCD) ∧ (16 : Byte).toNat ≤ (16 : Word).toNat ∧ faultV (wide 0).fault = false := by decide

theorem witness_BrReverseReversesTheBits : WellFormed (.brReverse 1 1) ∧ WellFormed (.brReverse 255 (2 ^ 255 - 1)) := by decide

theorem witness_FlipAndReverseUndoThemselves :
    WellFormed (.brFlip 8 3 2 0xA5) ∧ (3 : Word).toNat < (8 : Byte).toNat ∧ WellFormed (.brReverse 5 3) := by decide

theorem witness_NoFrameBufferCommandFaults : ∃ e x y wd ht rows,
    Instr.fbWrite .w8 0x80000000 0x80000000 0x7FFFFFFF 0 [] = .fbWrite e x y wd ht rows := ⟨_, _, _, _, _, _, rfl⟩

theorem witness_FbWriteOverwritesItsClippedRectangle : WellFormed (.fbWrite .w8 0xFFFFFFFD 0 12 1 [0xFF]) ∧
    Memory.wf (wide 0).cfg (wide 0).fb = true := by decide

theorem witness_FbWriteHasItsRowLevelForm : WellFormed (.fbWrite .w8 30 15 8 3 [0x81, 0xFF, 0xFF]) ∧
    Memory.wf (wide 0).cfg (wide 0).fb = true ∧ ¬ (((wide 0).cfg.width : Int) ≤ 30 ∨ ((wide 0).cfg.height : Int) ≤ 15 ∨ (30 : Int) + 8 ≤ 0 ∨ (15 : Int) + 3 ≤ 0) := by decide

theorem witness_FbClearZeroesItsClippedRectangle : Memory.wf (wide 0xFFFFFFFF).cfg (wide 0xFFFFFFFF).fb = true := by decide

theorem witness_FbTurnDotWritesOnePixel : Memory.wf (wide 0).cfg (wide 0).fb = true ∧
    (0 ≤ (31 : Word).toInt ∧ (31 : Word).toInt < (wide 0).cfg.width ∧ 0 ≤ (15 : Word).toInt ∧ (15 : Word).toInt < (wide 0).cfg.height) ∧
    (0xFFFFFFFF : Word).toInt < 0 ∧ (wide 0).cfg.width ≤ (32 : Word).toInt ∧ (wide 0).cfg.height ≤ (16 : Word).toInt := by decide

theorem witness_FbExtHReturnsEightColumns : (wide 0).cfg.width ≤ (32 : Word).toInt ∧ (0xFFFFFFF8 : Word).toInt ≤ -8 ∧
    (0xFFFFFFFF : Word).toInt < 0 ∧ (wide 0).cfg.height ≤ (16 : Word).toInt := by decide

theorem witness_FbExtVReturnsEightRows : (wide 0).cfg.width ≤ (32 : Word).toInt ∧ (0xFFFFFFF8 : Word).toInt ≤ -8 ∧
    (0xFFFFFFFF : Word).toInt < 0 ∧ (wide 0).cfg.height ≤ (16 : Word).toInt := by decide

theorem witness_AccessorsReturnTheDimensions : (wide 0).cfg.legal = true := by decide

theorem witness_RepeatingADrawingCommandChangesNothing : Memory.wf (wide 0).cfg (wide 0).fb = true ∧
    ∃ on x y, Instr.fbTurnDot true 31 15 = .fbTurnDot on x y := ⟨by decide, _, _, _, rfl⟩

theorem witness_WrittenPatternsReadBack : WellFormed (.fbWrite .w8 8 2 8 1 [0xC5]) ∧
    WellFormed (.fbWrite .w8 3 4 1 8 [1, 0, 1, 1, 0, 0, 0, 1]) ∧ Memory.wf (wide 0).cfg (wide 0).fb = true ∧
    0 ≤ (24 : Word).toInt ∧ (24 : Word).toInt + 8 ≤ (wide 0).cfg.width ∧ 0 ≤ (8 : Word).toInt ∧
    (8 : Word).toInt + 8 ≤ (wide 0).cfg.height ∧ 0 < [0xC5].length ∧ (2 : Word).toInt = (2 : Word).toInt + 0 := by decide

/-- The cleared rectangle `(8, 0)` of 8 by 8: its last row for `FB.EXTH`, its last column for `FB.EXTV`. -/
theorem witness_WrittenPatternsReadBack_cleared : Memory.wf (wide 0).cfg (wide 0).fb = true ∧
    (8 : Word).toInt ≤ (8 : Word).toInt ∧ (0 : Word).toInt ≤ (7 : Word).toInt ∧
    (8 : Word).toInt + 8 ≤ (8 : Word).toInt + (8 : Word).toInt ∧ (7 : Word).toInt < (0 : Word).toInt + (8 : Word).toInt ∧
    (8 : Word).toInt ≤ (15 : Word).toInt ∧ (0 : Word).toInt ≤ (0 : Word).toInt ∧
    (15 : Word).toInt < (8 : Word).toInt + (8 : Word).toInt ∧ (0 : Word).toInt + 8 ≤ (0 : Word).toInt + (8 : Word).toInt := by
  decide

theorem witness_DdInitForcesTheKnownState : p4.devreg.length = p4.cfg.n ∧ 1 < p4.cfg.n ∧ isRow .row7 = true := by decide

theorem witness_DdSendTransmitsEveryCell : p4.devreg.length = p4.cfg.n ∧ (7 : Nat) < 8 ∧
    p4.cfg.dev[1]? = some ⟨8, 0, .deg0, true⟩ ∧ regAddr .row0 = 8 - 7 ∧ 1 < p4.cfg.n ∧ isRow .decodeMode = false := by decide

theorem witness_DdShutdownBroadcastsTheMode : p4.devreg.length = p4.cfg.n ∧ 1 < p4.cfg.n := by decide

theorem witness_DdTestBroadcastsTheMode : p4.devreg.length = p4.cfg.n ∧ 1 < p4.cfg.n := by decide

theorem witness_DdClearZeroesTheDigits : p4.devreg.length = p4.cfg.n ∧ 1 < p4.cfg.n := by decide

theorem witness_DdBcastWritesOneRegisterEverywhere : p4.devreg.length = p4.cfg.n ∧ regAddr .displayTest = (15 : Byte).toNat ∧
    regAddr .row0 = (1 : Byte).toNat ∧ 1 < p4.cfg.n := by decide

theorem witness_CellPixelsReachTheirWireBits : p4.cfg.dev[0]? = some ⟨0, 0, .cw90, false⟩ ∧ (7 : Nat) < 8 ∧ (0 : Nat) < 8 := by decide

theorem witness_DdIntensitySetsEveryDevice : (15 : Word).toNat ≤ 15 ∧ 15 < (16 : Word).toNat ∧ p4.devreg.length = p4.cfg.n ∧
    faultV p4.fault = false := by decide

theorem witness_DdIntensityPdSetsEachDevice : ([0, 15] : List Word).length = p4.cfg.n ∧ (∀ v ∈ ([0, 15] : List Word), v.toNat ≤ 15) ∧
    p4.devreg.length = p4.cfg.n ∧ ([3] : List Word).length ≠ p4.cfg.n ∧ ([3, 16] : List Word).length = p4.cfg.n ∧
    (∃ v ∈ ([3, 16] : List Word), 15 < v.toNat) ∧ faultV p4.fault = false :=
  ⟨by decide, by simp, by decide, by decide, by decide, ⟨16, by decide, by decide⟩, by decide⟩

theorem witness_EachDeviceLatchesItsOwnFrame : ([0x0C01, 0x00FF] : Transaction).length = p4.cfg.n ∧ p4.devreg.length = p4.cfg.n ∧
    ([0x0C01, 0x00FF] : Transaction)[0]? = some 0x0C01 ∧ regAddr .shutdown = (frameAddr 0x0C01).toNat ∧
    ([0x0C01, 0x00FF] : Transaction)[1]? = some 0x00FF ∧ frameAddr 0x00FF = 0 := by decide

theorem witness_RegistersHoldTheLastFrameSent : 1 < p4.cfg.n ∧ p4.devreg.length = p4.cfg.n ∧
    (∀ x ∈ ([[0x0A01, 0x0A09], [0x0000, 0x0A0F]] : List Transaction), x.length = p4.cfg.n) ∧
    (∀ x ∈ ([[0x0A01, 0x0A09], [0x0000, 0x0A0F]] : List Transaction), ∀ f, x[1]? = some f → decodeWire f ≠ none) := by
  refine ⟨by decide, by decide, by decide, ?_⟩
  intro x hx f hf
  simp only [List.mem_cons, List.not_mem_nil, or_false] at hx
  rcases hx with rfl | rfl <;> cases hf <;> decide

theorem witness_WireFramesWriteTheirRegister : (wide 0).latchDev < (wide 0).devreg.length := by decide

theorem witness_LatchingIsRunningTheWireFrame : decodeWire 0x0B07 = some (.wireScanLimit 7) := rfl

theorem witness_ShiftingDeliversEachFrameToItsDevice :
    (⟨true, false, false, [0xFFFF, 0x1234], []⟩ : Bus).shift.length = ([0x0A0B, 0x8001] : Transaction).length := rfl

theorem witness_PinsDeliverTheWholeBusHistory :
    (wide 0x12345678).Inv ∧ (⟨true, false, false, [0xFFFF], []⟩ : Bus).shift.length = (wide 0x12345678).cfg.n :=
  ⟨wide_inv, by decide⟩

theorem witness_CommandsTakeTheirClockPeriods : (15 : Word).toNat ≤ 15 ∧ ([0, 15] : List Word).length = p4.cfg.n ∧
    ∀ v ∈ ([0, 15] : List Word), v.toNat ≤ 15 := ⟨by decide, by decide, by simp⟩

end Sys2Proof.Tests
end

section
/-! PROOFS. The statements of 10_state: the invariant, the configuration, and who touches the frame buffer. -/

namespace Sys2Proof.Machine

variable {s t : State}

/-- `s` with the frame buffer `g` and nothing else changed. -/
def State.withFb (g : List Nat) (s : State) : State := { s with fb := g }

/-! ### The invariant, kept by each operation of the block

Each proof names the fields of the invariant that the operation reaches; the others are those of `s`. -/

/-- The model's own fields, the inputs still to come and the latching device, carry no part of the invariant. -/
theorem State.Inv.withInputs (h : s.Inv) (cmd : List HostInput) (wire : List (Nat × Frame)) (k : Nat) :
    ({ s with cmdIn := cmd, wireIn := wire, latchDev := k } : State).Inv := { h with }

theorem State.Inv.respond (h : s.Inv) (r : Response) : (s.respond r).Inv := { h with }

theorem State.Inv.withFb (h : s.Inv) {g : List Nat} (hg : Memory.wf s.cfg g = true) :
    (s.withFb g).Inv := { h with fbWf := hg }

theorem State.Inv.takeFault (h : s.Inv) (op : Byte) (c : Cause) : (s.takeFault op c).Inv :=
  { h with
    faultReads := by
      rw [State.takeFault_fault]
      split
      · exact h.faultReads
      · exact .inr ⟨op, c, rfl⟩ }

theorem State.Inv.blockReset (h : s.Inv) : s.blockReset.Inv :=
  { h with
    fbWf := fbInit_wf _
    faultReads := .inl rfl
    busIdle := ⟨rfl, rfl⟩
    histFull := by simp }

theorem State.Inv.devWrite (h : s.Inv) (k : Nat) (r : DevReg) (b : Byte) : (s.devWrite k r b).Inv :=
  { h with devCount := by simpa using h.devCount }

theorem State.Inv.devForget (h : s.Inv) (k : Nat) : (s.devForget k).Inv :=
  { h with devCount := by simpa using h.devCount }

/-- A driver command whose transactions have one frame per device (42_display_driver R170). -/
theorem State.Inv.drive (h : s.Inv) {ts : List Transaction} (hts : ∀ x ∈ ts, x.length = s.cfg.n) : (s.drive ts).Inv where
  cfgLegal := by simpa using h.cfgLegal
  fbWf := by simpa using h.fbWf
  faultReads := by simpa using h.faultReads
  busIdle := by simpa using State.emitAll_idle ts s h.busIdle
  histFull := by
    intro x hx
    rw [State.drive_busHist, List.mem_append] at hx
    rw [State.drive_cfg]
    exact hx.elim (h.histFull x) (hts x)
  devCount := by simpa using h.devCount

/-- The state after power-up and reset (10_state R37, 70_reset_and_hazards R252). -/
theorem powerUp_inv {c : Instance} (hc : c.legal = true) : (State.powerUp c).Inv where
  cfgLegal := hc
  fbWf := fbInit_wf _
  faultReads := .inl rfl
  busIdle := ⟨rfl, rfl⟩
  histFull := by simp [State.powerUp]
  devCount := by simp [State.powerUp]

/-! ### Instructions and steps -/

theorem effect_of_exec {i : Instr} (h : exec i s = .next t) : Effect s t := by
  obtain ⟨u, hu, he⟩ := exec_effect i s
  cases hu.symm.trans h
  exact he

theorem Effect.keeps_inv (he : Effect s t) (h : s.Inv) : t.Inv := by
  cases he with
  | answered ws => exact h.respond _
  | drawn g hg => exact (h.withFb (hg h.fbWf)).respond _
  | driven ts hts => exact h.drive hts
  | faulted op c => exact h.takeFault op c
  | latched r b => exact h.devWrite _ r b
  | unchanged => exact h

theorem Effect.keeps_cfg (he : Effect s t) : t.cfg = s.cfg := by
  cases he with
  | driven ts _ => exact State.drive_cfg s ts
  | _ => rfl

theorem step_keeps_inv (h : s.Inv) (hs : step s = .next t) : t.Inv := by
  cases step_cases hs with
  | waited => exact h
  | reset rest => exact (h.withInputs rest _ _).blockReset
  | turnedAway _ rest => exact (h.withInputs rest _ _).respond _
  | malformed _ _ rest => exact (h.withInputs rest _ _).takeFault _ _
  | command _ _ rest _ _ _ _ _ ht => exact (effect_of_exec ht).keeps_inv (h.withInputs rest _ _)
  | wire k _ _ rest _ _ _ _ ht => exact (effect_of_exec ht).keeps_inv (h.withInputs _ rest k)
  | unassigned k _ rest => exact (h.withInputs _ rest _).devForget k

theorem step_keeps_cfg (hs : step s = .next t) : t.cfg = s.cfg := by
  cases step_cases hs with
  | command _ _ _ _ _ _ _ _ ht => exact (effect_of_exec ht).keeps_cfg
  | wire _ _ _ _ _ _ _ _ ht => exact (effect_of_exec ht).keeps_cfg
  | _ => rfl

/-! ### Another frame buffer under the same operation

An operation that neither reads nor writes `FB` commutes with replacing it. -/

@[simp] theorem State.withFb_cfg (g : List Nat) (s : State) : (s.withFb g).cfg = s.cfg := rfl
@[simp] theorem State.withFb_fb (g : List Nat) (s : State) : (s.withFb g).fb = g := rfl

theorem State.latch_withFb (k : Nat) (f : Frame) (g : List Nat) (s : State) :
    (s.withFb g).latch k f = (s.latch k f).withFb g := by
  unfold State.latch
  split
  · rfl
  · split <;> rfl

theorem State.latchFrom_withFb (fs : List Frame) (k : Nat) (g : List Nat) (s : State) :
    State.latchFrom k fs (s.withFb g) = (State.latchFrom k fs s).withFb g := by
  induction fs generalizing k s with
  | nil => rfl
  | cons f fs ih => rw [State.latchFrom, State.latch_withFb, ih, State.latchFrom]

theorem State.latchAll_withFb (fs : Transaction) (g : List Nat) (s : State) :
    (s.withFb g).latchAll fs = (s.latchAll fs).withFb g := by
  unfold State.latchAll
  rw [State.withFb_cfg]
  split
  · exact State.latchFrom_withFb fs 0 g s
  · rfl

theorem State.emit_withFb (fs : Transaction) (g : List Nat) (s : State) :
    (s.withFb g).emit fs = (s.emit fs).withFb g :=
  congrArg State.busIdle (State.latchAll_withFb fs g { s with busHist := s.busHist ++ [fs] })

theorem State.emitAll_withFb (ts : List Transaction) (g : List Nat) (s : State) :
    (s.withFb g).emitAll ts = (s.emitAll ts).withFb g :=
  List.foldl_hom (State.withFb g) (g₁ := State.emit) fun u fs => State.emit_withFb fs g u

theorem State.drive_withFb (ts : List Transaction) (g : List Nat) (s : State) :
    (s.withFb g).drive ts = (s.drive ts).withFb g := by
  rw [State.drive, State.emitAll_withFb]
  rfl

/-! ### Which instructions touch the frame buffer (10_state R25) -/

/-- The four drawing commands, which write `FB`. -/
def writesFb : Instr → Bool
  | .fbWrite .. | .fbClear .. | .fbClearAll | .fbTurnDot .. => true
  | _ => false

/-- The two extractions and `DD.SEND`, which read `FB`. -/
def readsFb : Instr → Bool
  | .fbExtH .. | .fbExtV .. | .ddSend => true
  | _ => false

theorem writesFb_eq_false {i : Instr} (hWrite : ∀ e x y wd ht rows, i ≠ .fbWrite e x y wd ht rows)
    (hClear : ∀ x y wd ht, i ≠ .fbClear x y wd ht) (hClearAll : i ≠ .fbClearAll)
    (hTurnDot : ∀ on x y, i ≠ .fbTurnDot on x y) : writesFb i = false := by
  cases i with
  | fbWrite => exact absurd rfl (hWrite _ _ _ _ _ _)
  | fbClear => exact absurd rfl (hClear _ _ _ _)
  | fbClearAll => exact absurd rfl hClearAll
  | fbTurnDot => exact absurd rfl (hTurnDot _ _ _)
  | _ => rfl

theorem readsFb_eq_false {i : Instr} (hExtH : ∀ rev x y, i ≠ .fbExtH rev x y) (hExtV : ∀ rev x y, i ≠ .fbExtV rev x y)
    (hSend : i ≠ .ddSend) : readsFb i = false := by
  cases i with
  | fbExtH => exact absurd rfl (hExtH _ _ _)
  | fbExtV => exact absurd rfl (hExtV _ _ _)
  | ddSend => exact absurd rfl hSend
  | _ => rfl

/-- The other instructions do the same whatever `FB` holds, and carry its content over. -/
theorem exec_withFb {i : Instr} (hw : writesFb i = false) (hr : readsFb i = false) (g : List Nat) (s : State) :
    ∃ t, exec i s = .next t ∧ exec i (s.withFb g) = .next (t.withFb g) := by
  have driven (ts : List Transaction) :
      (.next ((s.withFb g).drive ts) : Host.Outcome State Fault Refusal) = .next ((s.drive ts).withFb g) :=
    congrArg _ (State.drive_withFb ts g s)
  cases i with
  | fbWrite | fbClear | fbClearAll | fbTurnDot => cases hw
  | fbExtH | fbExtV | ddSend => cases hr
  | brSet =>
    simp only [exec, execBrSet]
    split <;> exact ⟨_, rfl, rfl⟩
  | brFlip =>
    simp only [exec, execBrFlip]
    split <;> exact ⟨_, rfl, rfl⟩
  | brExtract =>
    simp only [exec, execBrExtract]
    split <;> exact ⟨_, rfl, rfl⟩
  | ddIntensity =>
    simp only [exec, execDdIntensity]
    split
    · exact ⟨_, rfl, rfl⟩
    · exact ⟨_, rfl, driven _⟩
  | ddIntensityPd =>
    simp only [exec, execDdIntensityPd, State.withFb_cfg]
    split
    · next hlen => exact ⟨_, rfl, if_pos hlen⟩
    · split
      · exact ⟨_, rfl, rfl⟩
      · exact ⟨_, rfl, driven _⟩
  | ddInit | ddBcast | ddShutdown | ddTest | ddClear => exact ⟨_, rfl, driven _⟩
  | _ => exact ⟨_, rfl, rfl⟩

/-- Only a drawing command writes `FB`: the two extractions answer and `DD.SEND` drives the bus, and any other instruction
gives, from `s` with its own `FB` put back, its own result with the `FB` of `s`. -/
theorem exec_keeps_fb {i : Instr} (hw : writesFb i = false) (h : exec i s = .next t) : t.fb = s.fb := by
  cases hr : readsFb i with
  | true =>
    cases i with
    | fbExtH | fbExtV => cases h; rfl
    | ddSend => cases h; exact State.drive_fb s _
    | _ => cases hr
  | false =>
    obtain ⟨u, hu, hu'⟩ := exec_withFb hw hr s.fb s
    have ht : t = u.withFb s.fb := Host.Outcome.next.inj (h.symm.trans hu')
    rw [ht, State.withFb_fb]

/-! ### The obligations -/

/-- Settles O10, by what a step can be: each of its operations keeps the invariant. -/
theorem everyStepKeepsTheInvariant : Obligations.EveryStepKeepsTheInvariant :=
  fun _ _ => step_keeps_inv

/-- Settles O11, by what a step can be: no operation of the block writes the configuration. -/
theorem noStepChangesTheConfiguration : Obligations.NoStepChangesTheConfiguration :=
  fun _ _ => step_keeps_cfg

/-- Settles O13: an instruction that does not touch `FB` commutes with replacing it. -/
theorem onlyDrawingCommandsTouchTheFrameBuffer : Obligations.OnlyDrawingCommandsTouchTheFrameBuffer := by
  intro i s hWrite hClear hClearAll hTurnDot
  have hw := writesFb_eq_false hWrite hClear hClearAll hTurnDot
  refine ⟨fun t h => exec_keeps_fb hw h, fun hExtH hExtV hSend g t h => ?_⟩
  obtain ⟨u, hu, hu'⟩ := exec_withFb hw (readsFb_eq_false hExtH hExtV hSend) g s
  cases hu.symm.trans h
  exact hu'

/-- Settles O9: power-up meets the invariant for every legal configuration, that of log 1 among them. -/
theorem resetStateSatisfiesTheInvariant : Obligations.ResetStateSatisfiesTheInvariant :=
  ⟨fun _ => powerUp_inv, powerUp_inv (by decide)⟩

end Sys2Proof.Machine
end

section
/-! PROOFS. The statements of 20_memory: a command is taken off the queue and run, a drawing command repeats without effect,
and the devices hold the last data sent to them. -/

namespace Sys2Proof.Machine

variable {s : State}

/-! ### Taking a command off the queue (20_memory R63, R67) -/

theorem fetch_command {f : CmdFrame} {rest : List HostInput} (hw : s.wireIn = []) (hc : s.cmdIn = .frame f :: rest) :
    fetch s = fetchFrame f { s with cmdIn := rest } := by
  rw [fetch, hw, hc]

theorem fetchFrame_legal {f : CmdFrame} {i : Instr} (hf : faultV s.fault = false) (hd : decodeCmd f = .ok i) :
    fetchFrame f s = .run i s := by
  rw [fetchFrame, halted_eq_faultV, hf, hd]
  rfl

theorem step_of_fetch_run {t : State} {i : Instr} (h : fetch s = .run i t) : step s = exec i t := by
  rw [step, h]

/-! ### Drawing twice (20_memory R60) -/

/-- An operation that keeps the form of the buffer and sets the pixels of a region, whatever they held, does nothing the
second time. -/
theorem draw_idem {c : Instance} {draw : List Nat → List Nat} {P : Int → Int → Prop} [∀ x y, Decidable (P x y)]
    {v : Int → Int → Bool}
    (hdraw : ∀ g, Memory.wf c g = true → Memory.wf c (draw g) = true ∧
      ∀ x y, pixOr c (draw g) x y = if P x y then v x y else pixOr c g x y)
    {fb : List Nat} (h : Memory.wf c fb = true) : draw (draw fb) = draw fb := by
  obtain ⟨hwf, hpix⟩ := hdraw fb h
  obtain ⟨hwf', hpix'⟩ := hdraw (draw fb) hwf
  refine fb_ext hwf' hwf fun x y => ?_
  rw [hpix', hpix]
  split <;> rfl

/-- An instruction that only draws, with an operation that does nothing the second time, only answers when repeated. -/
theorem exec_twice_of_draw_idem {i : Instr} (draw : Instance → List Nat → List Nat)
    (hi : ∀ s, exec i s = .next (s.drew (draw s.cfg s.fb))) (h : draw s.cfg (draw s.cfg s.fb) = draw s.cfg s.fb) :
    ∃ t, exec i s = .next t ∧ exec i t = .next (t.answered []) := by
  refine ⟨_, hi s, ?_⟩
  rw [hi]
  simp [State.drew, State.answered, h]

/-! ### What a register holds after a history (20_memory R64, 42_display_driver R192) -/

theorem regAddr_ne_zero (r : DevReg) : regAddr r ≠ 0 := by cases r <;> decide

theorem regAddr_injective : Function.Injective regAddr := by
  intro r r' h
  have hr := regAt_regAddr r
  rw [h, regAt_regAddr] at hr
  exact (Option.some.inj hr).symm

/-- A mapped address is the no-op address or that of a register (20_memory R61). -/
theorem noop_or_register_of_decodeWire {f : Frame} (h : decodeWire f ≠ none) :
    frameAddr f = 0 ∨ ∃ r, regAt (frameAddr f) = some r := by
  unfold decodeWire at h
  split at h
  case h_1 ha => exact .inl (BitVec.eq_of_toNat_eq ha)
  case h_15 => exact absurd rfl h
  all_goals exact .inr (by simp [regAt, *])

/-- After one full transaction, a register holds the data of the frame for its device where that frame is for it, and what it
held before where not. -/
theorem State.emit_devRead_mapped {x : Transaction} {k : Nat} {f : Frame} (hn : x.length = s.cfg.n)
    (hk : k < s.devreg.length) (hf : x[k]? = some f) (hm : decodeWire f ≠ none) (r : DevReg) :
    (s.emit x).devRead k r = if (frameAddr f).toNat = regAddr r then some (frameData f) else s.devRead k r := by
  rcases noop_or_register_of_decodeWire hm with h0 | ⟨r0, hr0⟩
  · rw [State.emit_devRead_noop s hn hf h0, if_neg]
    rw [h0]
    exact (regAddr_ne_zero r).symm
  · rw [State.emit_devRead s hn hk hf hr0]
    simp only [← regAddr_of_regAt hr0, regAddr_injective.eq_iff, eq_comm]

theorem State.emitAll_concat (ts : List Transaction) (x : Transaction) :
    s.emitAll (ts ++ [x]) = (s.emitAll ts).emit x := List.foldl_concat ..

/-! ### The obligations -/

/-- Settles O1: the fetch finds the frame, and a legal frame of a block that is not halted is run. -/
theorem stepRunsTheDecodedCommand : Obligations.StepRunsTheDecodedCommand :=
  fun _ _ _ _ hw hc hf hd => step_of_fetch_run ((fetch_command hw hc).trans (fetchFrame_legal hf hd))

/-- Settles O39: each drawing operation sets the pixels of a region whatever they held, so that a second one finds them
set. -/
theorem repeatingADrawingCommandChangesNothing : Obligations.RepeatingADrawingCommandChangesNothing := by
  rintro i s h (⟨e, x, y, wd, ht, rows, rfl⟩ | ⟨x, y, wd, ht, rfl⟩ | rfl | ⟨on, x, y, rfl⟩)
  · exact exec_twice_of_draw_idem (fun c => fbWritten c e.bits (s32 x) (s32 y) (s32 wd) (s32 ht) rows) (fun _ => rfl)
      (draw_idem (fun g hg => fbWritten_spec hg _ _ _ _ _ _) h)
  · exact exec_twice_of_draw_idem (fun c => fbCleared c (s32 x) (s32 y) (s32 wd) (s32 ht)) (fun _ => rfl)
      (draw_idem (fun g hg => fbCleared_spec hg _ _ _ _) h)
  · exact exec_twice_of_draw_idem (fun c _ => List.replicate c.height 0) (fun _ => rfl) rfl
  · exact exec_twice_of_draw_idem (fun c g => pixWriteClipped c g (s32 x) (s32 y) on) (fun _ => rfl)
      (draw_idem (fun g hg => ⟨pixWriteClipped_wf hg _ _ _, fun x' y' => pixOr_pixWriteClipped hg _ _ x' y' on⟩) h)

/-- Settles O52, by induction on the history from its end: the last transaction either writes the register or leaves it as
the transactions before it did. -/
theorem registersHoldTheLastFrameSent : Obligations.RegistersHoldTheLastFrameSent := by
  intro s ts k r hk hd hfull hmapped
  induction ts using List.reverseRecOn with
  | nil => rfl
  | append_singleton ts x ih =>
    simp only [List.mem_append, List.mem_singleton, or_imp, forall_and, forall_eq] at hfull hmapped
    have hx : x[k]? = some x[k] := List.getElem?_eq_getElem (by omega)
    have hlast := State.emit_devRead_mapped (s := s.emitAll ts) (by simpa using hfull.2) (by simpa [hd] using hk) hx
      (hmapped.2 _ hx) r
    rw [State.emitAll_concat, hlast, ih hfull.1 hmapped.1]
    by_cases ha : (frameAddr x[k]).toNat = regAddr r <;> simp [hx, ha]

end Sys2Proof.Machine
end

section
/-! PROOFS. The statements of 30_encoding: the decoder and the encoder undo each other, which headers and addresses are
legal, every frame is answered, and assembly lines stand for their commands. -/

namespace Sys2Proof.Machine

variable {n p q : Byte} {ws : List Word} {o : Op} {h : Word} {f : CmdFrame} {i j : Instr}

/-! ### When an instruction is well formed (30_encoding R78, R82) -/

@[simp] theorem wf_brSet_iff {v : Bool} {start len : Word} {val : Nat} :
    WellFormed (.brSet v n start len val) ↔ widthOk n = true ∧ val < 2 ^ n.toNat := by
  simp [WellFormed, Instr.wf]

@[simp] theorem wf_brFlip_iff {start len : Word} {val : Nat} :
    WellFormed (.brFlip n start len val) ↔ widthOk n = true ∧ val < 2 ^ n.toNat := by
  simp [WellFormed, Instr.wf]

@[simp] theorem wf_brExtract_iff {m : Byte} {start : Word} {val : Nat} :
    WellFormed (.brExtract n m start val) ↔ widthOk n = true ∧ widthOk m = true ∧ val < 2 ^ n.toNat := by
  simp [WellFormed, Instr.wf, and_assoc]

@[simp] theorem wf_brReverse_iff {val : Nat} : WellFormed (.brReverse n val) ↔ widthOk n = true ∧ val < 2 ^ n.toNat := by
  simp [WellFormed, Instr.wf]

/-- A negative height asks for no rows (30_encoding R79). -/
theorem toNat_max_zero (a : Int) : (max a 0).toNat = a.toNat := by omega

@[simp] theorem wf_fbWrite_iff {e : ElemWidth} {x y wd ht : Word} {rows : List Nat} :
    WellFormed (.fbWrite e x y wd ht rows) ↔ rows.length = (max (s32 ht) 0).toNat ∧ ∀ r ∈ rows, r < 2 ^ e.bits := by
  simp [WellFormed, Instr.wf, s32, toNat_max_zero]

@[simp] theorem wf_ddIntensityPd_iff {vs : List Word} : WellFormed (.ddIntensityPd vs) ↔ vs.length < 2 ^ 32 := by
  simp [WellFormed, Instr.wf]

/-! ### What each operand reader accepts (30_encoding R78, R80) -/

theorem readC0_eq_ok : readC0 ws i = .ok j ↔ ws = [] ∧ j = i := by
  unfold readC0; split <;> simp_all [eq_comm]

theorem readCXY_eq_ok {mk : Word → Word → Instr} :
    readCXY ws mk = .ok j ↔ ∃ x y, ws = [x, y] ∧ j = mk x y := by
  unfold readCXY; split <;> simp_all [eq_comm]

theorem readCRECT_eq_ok {mk : Word → Word → Word → Word → Instr} :
    readCRECT ws mk = .ok j ↔ ∃ x y wd ht, ws = [x, y, wd, ht] ∧ j = mk x y wd ht := by
  unfold readCRECT; split <;> simp_all [eq_comm]

theorem readV_eq_ok {mk : Nat → Instr} :
    readV n ws mk = .ok j ↔ wordsVal ws < 2 ^ n.toNat ∧ j = mk (wordsVal ws) := by
  unfold readV; split <;> simp_all [eq_comm]

theorem readCBRSL_eq_ok {mk : Word → Word → Nat → Instr} :
    readCBRSL n ws mk = .ok j ↔
      ∃ start len vs, ws = start :: len :: vs ∧ wordsVal vs < 2 ^ n.toNat ∧ j = mk start len (wordsVal vs) := by
  unfold readCBRSL; split <;> simp_all [readV_eq_ok]

theorem readCBRS_eq_ok {mk : Word → Nat → Instr} :
    readCBRS n ws mk = .ok j ↔
      ∃ start vs, ws = start :: vs ∧ wordsVal vs < 2 ^ n.toNat ∧ j = mk start (wordsVal vs) := by
  unfold readCBRS; split <;> simp_all [readV_eq_ok]

theorem readCWRITE_eq_ok :
    readCWRITE q ws = .ok j ↔ ∃ e x y wd ht ds, elemWidthOf q = some e ∧ ws = x :: y :: wd :: ht :: ds ∧
      (∀ r ∈ readRows (max (s32 ht) 0).toNat (cw e.bits) ds, r < 2 ^ e.bits) ∧
      j = .fbWrite e x y wd ht (readRows (max (s32 ht) 0).toNat (cw e.bits) ds) := by
  unfold readCWRITE
  split
  · simp_all
  · next e x y wd ht ds he =>
    simp only [List.all_eq_true, decide_eq_true_eq]
    constructor
    · intro hr
      split at hr
      · next hrows => exact ⟨e, x, y, wd, ht, ds, he, rfl, hrows, (Except.ok.inj hr).symm⟩
      · cases hr
    · rintro ⟨e', x', y', wd', ht', ds', he', hws, hrows, rfl⟩
      cases he.symm.trans he'
      cases hws
      rw [if_pos hrows]
  · next hws =>
    constructor
    · rintro ⟨⟩
    · rintro ⟨e, x, y, wd, ht, ds, he, rfl, -⟩
      exact absurd rfl (hws _ _ _ _ _)

/-! The operand word of `DD.BCAST` holds the address in bits 15:8, the data in bits 7:0 and zeros above (30_encoding R80). -/

theorem bcastWord_high (a d : Byte) : (0#16 ++ a ++ d : Word).extractLsb' 16 16 = 0 :=
  BitVec.extractLsb'_append_eq_ite.trans (BitVec.extractLsb'_append_eq_left (a := 0#16) (b := a))

theorem bcastWord_addr (a d : Byte) : (0#16 ++ a ++ d : Word).extractLsb' 8 8 = a :=
  BitVec.extractLsb'_append_eq_ite.trans (BitVec.extractLsb'_append_eq_right (a := 0#16) (b := a))

theorem bcastWord_data (a d : Byte) : (0#16 ++ a ++ d : Word).extractLsb' 0 8 = d :=
  BitVec.extractLsb'_append_eq_right

theorem bcastWord_eta {w : Word} (hw : w.extractLsb' 16 16 = 0) :
    0#16 ++ w.extractLsb' 8 8 ++ w.extractLsb' 0 8 = w := by
  rw [show 0#16 = w.extractLsb' 16 16 from hw.symm,
    BitVec.extractLsb'_append_extractLsb'_eq_extractLsb' (start₁ := 8) (len₁ := 8) rfl,
    BitVec.extractLsb'_append_extractLsb'_eq_extractLsb' (start₁ := 0) (len₁ := 8) rfl, BitVec.extractLsb'_eq_self]

theorem readBcast_eq_ok : readBcast ws = .ok j ↔ ∃ a d : Byte, ws = [0#16 ++ a ++ d] ∧ j = .ddBcast a d := by
  constructor
  · intro hr
    unfold readBcast at hr
    split at hr
    · split at hr
      · next w hw => exact ⟨_, _, by rw [bcastWord_eta hw], (Except.ok.inj hr).symm⟩
      · cases hr
    · cases hr
  · rintro ⟨a, d, rfl, rfl⟩
    rw [readBcast, if_pos (bcastWord_high a d), bcastWord_addr, bcastWord_data]

theorem readIntensity_eq_ok : readIntensity ws = .ok j ↔ ∃ v, ws = [v] ∧ j = .ddIntensity v := by
  unfold readIntensity; split <;> simp_all [eq_comm]

theorem readCLIST_eq_ok : readCLIST ws = .ok j ↔ ∃ k vs, ws = k :: vs ∧ j = .ddIntensityPd vs := by
  unfold readCLIST; split <;> simp_all [eq_comm]

/-! ### Legal headers (30_encoding R71, R82) -/

theorem headerOk_iff_fields : headerOk o h = true ↔ hdrRsv h = 0 ∧ (o.row.usesF || !hdrF h) = true ∧
    (if o.row.usesP then widthOk (hdrP h) else hdrP h == 0) = true ∧ qOk o.row.q (hdrQ h) = true := by
  simp only [headerOk, Bool.and_eq_true, beq_iff_eq, and_assoc]

/-- The header of a row with the fields of `h` that the row uses and zeros in the others. -/
def usedHeader (o : Op) (h : Word) : Word :=
  mkHeader o.code (o.row.usesF && hdrF h) (if o.row.usesP then hdrP h else 0) (if o.row.q = .unused then 0 else hdrQ h)

/-- A legal header holds nothing but its row's code and the fields the row uses. -/
theorem usedHeader_eq (hc : o.code = hdrOp h) (hh : headerOk o h = true) : usedHeader o h = h := by
  obtain ⟨hr, hf, hp, hq⟩ := headerOk_iff_fields.mp hh
  have ef : (o.row.usesF && hdrF h) = hdrF h := by cases hu : o.row.usesF <;> simp_all
  have ep : (if o.row.usesP then hdrP h else 0) = hdrP h := by cases hu : o.row.usesP <;> simp_all
  have eq : (if o.row.q = .unused then 0 else hdrQ h) = hdrQ h := by cases hu : o.row.q <;> simp_all [qOk]
  rw [usedHeader, hc, ef, ep, eq, mkHeader_eta hr]

/-! ### What decodes is well formed and encodes to its code -/

theorem wordsOf_wordsVal_of_length {k : Nat} (hk : ws.length = k) : wordsOf k (wordsVal ws) = ws :=
  hk ▸ wordsOf_wordsVal ws

theorem encode_of_readOperands (hh : headerOk o h = true)
    (hl : frameLen o ⟨h, ws⟩ = some (CmdFrame.length ⟨h, ws⟩)) (hr : readOperands o h ws = .ok i) :
    WellFormed i ∧ encode i = .cmd ⟨usedHeader o h, ws⟩ := by
  obtain ⟨-, -, hp, hq⟩ := headerOk_iff_fields.mp hh
  cases o with
  | brSet | brFlip =>
    obtain ⟨start, len, vs, rfl, hv, rfl⟩ := readCBRSL_eq_ok.mp hr
    have hn : widthOk (hdrP h) = true := hp
    have hlen : vs.length = cw (hdrP h).toNat := by simp [frameLen, CmdFrame.length, Op.row] at hl; omega
    refine ⟨by simp [hn, hv], ?_⟩
    rw [encode, wordsOf_wordsVal_of_length hlen]
    rfl
  | brExtract =>
    obtain ⟨start, vs, rfl, hv, rfl⟩ := readCBRS_eq_ok.mp hr
    have hlen : vs.length = cw (hdrP h).toNat := by simp [frameLen, CmdFrame.length, Op.row] at hl; omega
    refine ⟨wf_brExtract_iff.mpr ⟨hp, hq, hv⟩, ?_⟩
    rw [encode, wordsOf_wordsVal_of_length hlen]
    rfl
  | brReverse =>
    obtain ⟨hv, rfl⟩ := readV_eq_ok.mp hr
    have hlen : ws.length = cw (hdrP h).toNat := by simp [frameLen, CmdFrame.length, Op.row] at hl; omega
    refine ⟨wf_brReverse_iff.mpr ⟨hp, hv⟩, ?_⟩
    rw [encode, wordsOf_wordsVal_of_length hlen]
    rfl
  | fbWrite =>
    obtain ⟨e, x, y, wd, ht, ds, he, rfl, hrows, rfl⟩ := readCWRITE_eq_ok.mp hr
    have hcode := code_of_elemWidthOf he
    have hS : hdrS h = e.bits := by rw [hdrS, ← hcode, toNat_elemCode]
    have hlen : ds.length = (max (s32 ht) 0).toNat * cw e.bits := by
      simp [frameLen, CmdFrame.length, Op.row, hS] at hl; omega
    refine ⟨wf_fbWrite_iff.mpr ⟨length_readRows _ _ _, hrows⟩, ?_⟩
    rw [encode, wordsOf_readRows _ _ _ hlen, hcode]
    rfl
  | ddIntensityPd =>
    obtain ⟨k, vs, rfl, rfl⟩ := readCLIST_eq_ok.mp hr
    have hk : vs.length = k.toNat := by simp [frameLen, CmdFrame.length, Op.row, u32] at hl; omega
    refine ⟨wf_ddIntensityPd_iff.mpr (hk ▸ k.isLt), ?_⟩
    rw [encode, hk, BitVec.ofNat_toNat, BitVec.setWidth_eq]
    rfl
  | fbClear =>
    obtain ⟨x, y, wd, ht, rfl, rfl⟩ := readCRECT_eq_ok.mp hr
    exact ⟨rfl, rfl⟩
  | fbTurnDot | fbExtH | fbExtV =>
    obtain ⟨x, y, rfl, rfl⟩ := readCXY_eq_ok.mp hr
    exact ⟨rfl, rfl⟩
  | ddBcast =>
    obtain ⟨a, d, rfl, rfl⟩ := readBcast_eq_ok.mp hr
    exact ⟨rfl, rfl⟩
  | ddIntensity =>
    obtain ⟨v, rfl, rfl⟩ := readIntensity_eq_ok.mp hr
    exact ⟨rfl, rfl⟩
  | fbClearAll | fbWidth | fbHeight | ddInit | ddSend | ddShutdown | ddTest | ddClear =>
    obtain ⟨rfl, rfl⟩ := readC0_eq_ok.mp hr
    exact ⟨rfl, rfl⟩

theorem encode_of_decodeCmd (hd : decodeCmd f = .ok i) : WellFormed i ∧ encode i = .cmd f := by
  obtain ⟨o, -, hc, hh, hl, hr⟩ := decodeCmd_ok hd
  have he := encode_of_readOperands hh hl hr
  rwa [usedHeader_eq hc hh] at he

theorem frame_of_addr {g : Frame} {a : Nat} (ha : (frameAddr g).toNat = a) : frame (BitVec.ofNat 8 a) (frameData g) = g := by
  rw [← ha, BitVec.ofNat_toNat, BitVec.setWidth_eq, frame_eta]

theorem encode_of_decodeWire {g : Frame} (hd : decodeWire g = some i) : WellFormed i ∧ encode i = .wire g := by
  unfold decodeWire at hd
  split at hd
  case h_15 => cases hd
  all_goals
    next ha =>
      cases hd
      exact ⟨rfl, congrArg Code.wire (frame_of_addr ha)⟩

theorem decode_cmd : decode (.cmd f) = some i ↔ decodeCmd f = .ok i := by
  rw [decode]
  cases decodeCmd f <;> simp [Except.toOption]

/-! ### An encoded instruction decodes to itself -/

/-- A frame whose header fields are legal for its row and whose length is right decodes to what its operands read as. -/
theorem decode_mkCmd {b : Bool} (hf : (o.row.usesF || !b) = true)
    (hp : (if o.row.usesP then widthOk p else p == 0) = true) (hq : qOk o.row.q q = true)
    (hl : frameLen o ⟨mkHeader o.code b p q, ws⟩ = some (1 + ws.length))
    (hr : readOperands o (mkHeader o.code b p q) ws = .ok i) : decode (mkCmd o b p q ws) = some i := by
  have hh : headerOk o (mkHeader o.code b p q) = true := headerOk_iff_fields.mpr (by simp only [hdrRsv_mkHeader,
    hdrF_mkHeader, hdrP_mkHeader, hdrQ_mkHeader, hf, hp, hq, and_self])
  refine decode_cmd.mpr ?_
  simp only [decodeCmd, hdrOp_mkHeader, opOf_code, if_pos hh]
  exact (if_pos hl).trans hr

theorem decode_encode (hwf : WellFormed i) : decode (encode i) = some i := by
  cases i with
  | brSet v n start len val | brFlip n start len val =>
    obtain ⟨hn, hv⟩ : widthOk n = true ∧ val < 2 ^ n.toNat := by simpa using hwf
    refine decode_mkCmd rfl hn rfl ?_ ?_
    · simp [frameLen, Op.row]; omega
    · simp [readOperands, readCBRSL_eq_ok, wordsVal_wordsOf_of_lt hv, hv]
  | brExtract n m start val =>
    obtain ⟨hn, hm, hv⟩ := wf_brExtract_iff.mp hwf
    refine decode_mkCmd rfl hn hm ?_ ?_
    · simp [frameLen, Op.row]; omega
    · simp [readOperands, readCBRS_eq_ok, wordsVal_wordsOf_of_lt hv, hv]
  | brReverse n val =>
    obtain ⟨hn, hv⟩ := wf_brReverse_iff.mp hwf
    refine decode_mkCmd rfl hn rfl ?_ ?_
    · simp [frameLen, Op.row]
    · simp [readOperands, readV_eq_ok, wordsVal_wordsOf_of_lt hv, hv]
  | fbWrite e x y wd ht rows =>
    obtain ⟨hlen, hrows⟩ := wf_fbWrite_iff.mp hwf
    have hread : readRows (max (s32 ht) 0).toNat (cw e.bits) (rows.flatMap (wordsOf (cw e.bits))) = rows := by
      rw [← hlen]
      exact readRows_wordsOf _ _ fun r hr => (hrows r hr).trans_le (Nat.pow_le_pow_right (by decide) (by unfold cw; omega))
    refine decode_mkCmd rfl rfl ?_ ?_ ?_
    · cases e <;> rfl
    · simp [frameLen, Op.row, hdrS, toNat_elemCode, ← hlen]; omega
    · exact readCWRITE_eq_ok.mpr ⟨e, x, y, wd, ht, _, by simp, rfl, by rwa [hread], by rw [hread]⟩
  | ddIntensityPd vs =>
    have hlen := wf_ddIntensityPd_iff.mp hwf
    refine decode_mkCmd rfl rfl rfl ?_ rfl
    simp [frameLen, Op.row, u32]; omega
  | ddBcast a d => exact decode_mkCmd rfl rfl rfl rfl (readBcast_eq_ok.mpr ⟨a, d, rfl, rfl⟩)
  | fbTurnDot b x y | fbExtH b x y | fbExtV b x y =>
    exact decode_mkCmd rfl rfl rfl rfl (readCXY_eq_ok.mpr ⟨x, y, rfl, by rw [hdrF_mkHeader]⟩)
  | ddShutdown b | ddTest b => exact decode_mkCmd rfl rfl rfl rfl (readC0_eq_ok.mpr ⟨rfl, by rw [hdrF_mkHeader]⟩)
  | fbClear | fbClearAll | fbWidth | fbHeight | ddInit | ddSend | ddIntensity | ddClear =>
    exact decode_mkCmd rfl rfl rfl rfl rfl
  | wireNoop | wireRow0 | wireRow1 | wireRow2 | wireRow3 | wireRow4 | wireRow5 | wireRow6 | wireRow7 | wireDecode |
    wireIntensity | wireScanLimit | wireShutdown | wireTest =>
    rw [encode, decode, decodeWire, frameAddr_frame, frameData_frame]
    rfl

/-! ### Match and mask (30_encoding R82)

A masked header equals the match exactly when it does so field by field. -/

@[simp] theorem hdrOp_and (a b : Word) : hdrOp (a &&& b) = hdrOp a &&& hdrOp b := BitVec.extractLsb'_and
@[simp] theorem hdrF_and (a b : Word) : hdrF (a &&& b) = (hdrF a && hdrF b) := BitVec.getLsbD_and
@[simp] theorem hdrRsv_and (a b : Word) : hdrRsv (a &&& b) = hdrRsv a &&& hdrRsv b := BitVec.extractLsb'_and
@[simp] theorem hdrP_and (a b : Word) : hdrP (a &&& b) = hdrP a &&& hdrP b := BitVec.extractLsb'_and
@[simp] theorem hdrQ_and (a b : Word) : hdrQ (a &&& b) = hdrQ a &&& hdrQ b := BitVec.extractLsb'_and

@[simp] theorem byte_and_ones (b : Byte) : b &&& 255#8 = b := BitVec.and_allOnes

theorem mask_fields (o : Op) : hdrOp o.row.mask = 0xFF ∧ hdrF o.row.mask = !o.row.usesF ∧ hdrRsv o.row.mask = 0x7F ∧
    hdrP o.row.mask = (if o.row.usesP then 0 else 0xFF) ∧ hdrQ o.row.mask = (if o.row.q = .unused then 0xFF else 0) := by
  cases o <;> decide

theorem mask_eq (o : Op) : o.row.mask =
    (0xFF#8 ++ BitVec.ofBool (hdrF o.row.mask) ++ 0x7F#7 ++ hdrP o.row.mask ++ hdrQ o.row.mask : BitVec 32) := by
  cases o <;> rfl

theorem matched_eq (o : Op) : o.row.matched = mkHeader o.code false 0 0 := by cases o <;> rfl

theorem header_matches_iff : h &&& o.row.mask = o.row.matched ↔
    hdrOp h = o.code ∧ hdrRsv h = 0 ∧ (hdrF h && hdrF o.row.mask) = false ∧ hdrP h &&& hdrP o.row.mask = 0 ∧
      hdrQ h &&& hdrQ o.row.mask = 0 := by
  rw [matched_eq]
  constructor
  · intro hm
    obtain ⟨hop, -, hrsv, -, -⟩ := mask_fields o
    have hOp := congrArg hdrOp hm
    have hRsv := congrArg hdrRsv hm
    have hF := congrArg hdrF hm
    have hP := congrArg hdrP hm
    have hQ := congrArg hdrQ hm
    rw [hdrOp_and, hop, hdrOp_mkHeader] at hOp
    rw [hdrRsv_and, hrsv, hdrRsv_mkHeader] at hRsv
    rw [hdrF_and, hdrF_mkHeader] at hF
    rw [hdrP_and, hdrP_mkHeader] at hP
    rw [hdrQ_and, hdrQ_mkHeader] at hQ
    exact ⟨(byte_and_ones _).symm.trans hOp, BitVec.and_allOnes.symm.trans hRsv, hF, hP, hQ⟩
  · rintro ⟨hc, hr, hf, hp, hq⟩
    rw [← hc, mask_eq]
    conv_lhs => rw [← mkHeader_eta hr]
    exact Laws.HeaderMatchesTable.header_and _ _ _ _ _ _ _ hf hp hq

theorem widthOk_iff : widthOk n = true ↔ 1 ≤ n.toNat := by
  simp [widthOk, ← BitVec.toNat_inj, Nat.one_le_iff_ne_zero]

theorem isSome_elemWidthOf_iff :
    (elemWidthOf q).isSome = true ↔ q.toNat = 8 ∨ q.toNat = 16 ∨ q.toNat = 32 ∨ q.toNat = 64 := by
  unfold elemWidthOf
  split
  case h_5 =>
    simp only [imp_false] at *
    exact iff_of_false nofun (by omega)
  all_goals exact iff_of_true rfl (by omega)

theorem fOk_iff {u b : Bool} : (u || !b) = true ↔ (b && !u) = false := by cases u <;> cases b <;> decide

theorem pOk_iff {u : Bool} : (if u then widthOk p else p == 0) = true ↔
    p &&& (if u then 0 else 0xFF) = 0 ∧ (u = true → 1 ≤ p.toNat) := by
  cases u with
  | false => simp
  | true => simp [widthOk_iff]

theorem qOk_iff {u : QUse} : qOk u q = true ↔
    q &&& (if u = .unused then 0xFF else 0) = 0 ∧ (u = .resultWidth → 1 ≤ q.toNat) ∧
      (u = .elemWidth → q.toNat = 8 ∨ q.toNat = 16 ∨ q.toNat = 32 ∨ q.toNat = 64) := by
  cases u with
  | unused => simp [qOk]
  | resultWidth => simp [qOk, widthOk_iff]
  | elemWidth => simp [qOk, isSome_elemWidthOf_iff]

theorem headerOk_iff_matches : (hdrOp h = o.code ∧ headerOk o h = true) ↔
    (h &&& o.row.mask = o.row.matched ∧ (o.row.usesP = true → 1 ≤ (hdrP h).toNat) ∧
      (o.row.q = .resultWidth → 1 ≤ (hdrQ h).toNat) ∧
      (o.row.q = .elemWidth → (hdrQ h).toNat = 8 ∨ (hdrQ h).toNat = 16 ∨ (hdrQ h).toNat = 32 ∨ (hdrQ h).toNat = 64)) := by
  obtain ⟨-, hf, -, hp, hq⟩ := mask_fields o
  rw [header_matches_iff, headerOk_iff_fields, fOk_iff, pOk_iff, qOk_iff, hf, hp, hq]
  tauto

/-! ### What does not decode (30_encoding R83, R87) -/

/-- The row search fails exactly when none of the twenty codes is `b`, which leaves the gaps between them. -/
theorem opOf_eq_none_iff {b : Byte} : opOf b = none ↔
    b.toNat = 0 ∨ (5 ≤ b.toNat ∧ b.toNat ≤ 0x0F) ∨ (0x18 ≤ b.toNat ∧ b.toNat ≤ 0x1F) ∨ 0x28 ≤ b.toNat := by
  have hb := b.isLt
  simp [opOf, Op.all, Op.code, Op.row, ← BitVec.toNat_inj]
  omega

theorem decodeCmd_illegal_iff : decodeCmd f = .error .illegalOpcode ↔ opOf (hdrOp f.header) = none := by
  constructor
  · intro hd
    obtain ⟨-, ho⟩ | ⟨hc, -⟩ := decodeCmd_error hd
    · exact ho
    · simp at hc
  · intro ho
    rw [decodeCmd, ho]

theorem decodeWire_eq_none_iff {g : Frame} : decodeWire g = none ↔
    ((frameAddr g).toNat = 13 ∨ (frameAddr g).toNat = 14 ∨ 16 ≤ (frameAddr g).toNat) := by
  unfold decodeWire
  split
  case h_15 =>
    simp only [imp_false, true_iff] at *
    omega
  all_goals exact iff_of_false nofun (by omega)

/-! ### Every frame is answered once (30_encoding R86) -/

variable {s t : State}

theorem step_of_fetch_done (hs : fetch s = .done t) : step s = .next t := by
  rw [step, hs]

theorem fetchFrame_halted (f : CmdFrame) (hf : faultV s.fault = true) : fetchFrame f s = .done (s.respond .halted) := by
  rw [fetchFrame, halted_eq_faultV, if_pos hf]

theorem fetchFrame_malformed {c : Cause} (hf : faultV s.fault = false) (hd : decodeCmd f = .error c) :
    fetchFrame f s = .done (s.faulted (hdrOp f.header) c) := by
  rw [fetchFrame, halted_eq_faultV, hf, hd, ← State.takeFault_of_running s _ _ hf]
  rfl

/-- A command is no wire frame: the only instructions that answer nothing are those a device runs (42_display_driver R195). -/
theorem exec_command_responds (hi : encode i = .cmd f) (ht : exec i s = .next t) : t.resp ≠ s.resp := by
  cases i with
  | brSet | brFlip | brExtract | ddIntensity =>
    simp only [exec, execBrSet, execBrFlip, execBrExtract, execDdIntensity] at ht
    split at ht <;> cases ht <;> simp
  | ddIntensityPd =>
    simp only [exec, execDdIntensityPd] at ht
    split at ht
    · cases ht; simp
    · split at ht <;> cases ht <;> simp
  | brReverse | fbWrite | fbClear | fbClearAll | fbTurnDot | fbExtH | fbExtV | fbWidth | fbHeight | ddInit | ddBcast |
    ddSend | ddShutdown | ddTest | ddClear =>
    cases ht
    simp
  | _ => cases hi

/-- A command answers `OK` and leaves `FAULT`, or takes a fault; of the shapes of an effect, the other two answer nothing. -/
theorem exec_command_answers (hi : encode i = .cmd f) (s : State) : ∃ t, exec i s = .next t ∧ t.cmdIn = s.cmdIn ∧
    ((∃ ws, t.resp = s.resp ++ [.ok ws] ∧ t.fault = s.fault) ∨ ∃ op c, t = s.takeFault op c) := by
  obtain ⟨t, ht, he⟩ := exec_effect i s
  refine ⟨t, ht, ?_⟩
  have hresp := exec_command_responds hi ht
  cases he with
  | answered | drawn => exact ⟨rfl, .inl ⟨_, rfl, rfl⟩⟩
  | driven => exact ⟨by simp, .inl ⟨[], by simp, by simp⟩⟩
  | faulted op c => exact ⟨rfl, .inr ⟨op, c, rfl⟩⟩
  | latched | unchanged => exact absurd rfl hresp

/-! ### Assembly lines (30_encoding R89) -/

theorem natArg_natCast {b v : Nat} (hv : v < b) : natArg b v = some v := by
  simp [natArg, hv]

theorem bitsArg_natCast {w v : Nat} (hv : v < 2 ^ w) : bitsArg w v = some (BitVec.ofNat w v) := by
  rw [bitsArg, natArg_natCast hv]
  rfl

@[simp] theorem bitsArg_toNat {w : Nat} (v : BitVec w) : bitsArg w v.toNat = some v := by
  rw [bitsArg_natCast v.isLt, BitVec.ofNat_toNat, BitVec.setWidth_eq]

@[simp] theorem signedArg_toInt (v : Word) : signedArg v.toInt = some v := by
  rw [signedArg, BitVec.ofInt_toInt]
  exact if_pos ⟨v.le_toInt, v.toInt_lt⟩

theorem widthArg_toNat (hn : widthOk n = true) : widthArg n.toNat = some n := by
  simp [widthArg, hn]

@[simp] theorem elemArg_bits (e : ElemWidth) : elemArg e.bits = some e := by
  rw [← toNat_elemCode, elemArg, bitsArg_toNat]
  exact elemWidthOf_code e

theorem mapM_eq_some_self {α : Type} {g : α → Option α} {l : List α} (hg : ∀ a ∈ l, g a = some a) :
    l.mapM g = some l := by
  induction l with
  | nil => rfl
  | cons a l ih =>
    obtain ⟨ha, hl⟩ := List.forall_mem_cons.mp hg
    simp [ha, ih hl]

theorem mapM_bitsArg_toNat {w : Nat} (vs : List (BitVec w)) :
    vs.mapM (bitsArg w ∘ fun v => (v.toNat : Int)) = some vs :=
  mapM_eq_some_self (by simp)

theorem assemble_disassemble (hwf : WellFormed i) (hi : encode i = .cmd f) :
    ∃ l, disassemble i = some l ∧ assemble l = some i := by
  cases i with
  | brSet v n _ _ val | brFlip n _ _ val | brReverse n val =>
    obtain ⟨hn, hv⟩ : widthOk n = true ∧ val < 2 ^ n.toNat := by simpa using hwf
    exact ⟨_, rfl, by simp [assemble, assembleCore, uNum, widthArg_toNat hn, natArg_natCast hv]⟩
  | brExtract =>
    obtain ⟨hn, hm, hv⟩ := wf_brExtract_iff.mp hwf
    exact ⟨_, rfl, by simp [assemble, assembleCore, uNum, widthArg_toNat hn, widthArg_toNat hm, natArg_natCast hv]⟩
  | fbWrite e x y wd ht rows =>
    obtain ⟨hlen, hrows⟩ := wf_fbWrite_iff.mp hwf
    have hcount : (rows.length : Int) = max ht.toInt 0 := by rw [hlen, s32]; omega
    have hread : rows.mapM (natArg (2 ^ e.bits) ∘ Int.ofNat) = some rows :=
      mapM_eq_some_self fun r hr => natArg_natCast (hrows r hr)
    exact ⟨_, rfl, by simp [assemble, assembleCore, sNum, hread, hcount]⟩
  | ddIntensityPd => exact ⟨_, rfl, by simpa [assemble, assembleCore, mapM_bitsArg_toNat] using hwf⟩
  | fbClear | fbTurnDot | fbExtH | fbExtV => exact ⟨_, rfl, by simp [assemble, assembleCore, sNum]⟩
  | ddBcast | ddIntensity => exact ⟨_, rfl, by simp [assemble, assembleCore, uNum]⟩
  | fbClearAll | fbWidth | fbHeight | ddInit | ddSend | ddShutdown | ddTest | ddClear => exact ⟨_, rfl, rfl⟩
  | _ => cases hi

theorem disassemble_wire {g : Frame} (hi : encode i = .wire g) : disassemble i = none := by
  cases i with
  | wireNoop | wireRow0 | wireRow1 | wireRow2 | wireRow3 | wireRow4 | wireRow5 | wireRow6 | wireRow7 | wireDecode |
    wireIntensity | wireScanLimit | wireShutdown | wireTest => rfl
  | _ => cases hi

theorem assembleCore_turnDot (on : Bool) (x y : Word) :
    assembleCore .fbTurnDot (some on) [sNum x, sNum y] = some (.fbTurnDot on x y) := by
  simp [assembleCore, sNum]

theorem assembleCore_bcast (a d : Byte) : assembleCore .ddBcast none [uNum a, uNum d] = some (.ddBcast a d) := by
  simp [assembleCore, uNum]

theorem assemble_digit {k : Nat} (hk : k ≤ 7) (d : Byte) :
    assemble (.pseudo .digit [.num k, uNum d]) = some (.ddBcast (BitVec.ofNat 8 (k + 1)) d) := by
  have haddr : bitsArg 8 ((k : Int) + 1) = some (BitVec.ofNat 8 (k + 1)) := by
    exact_mod_cast bitsArg_natCast (by omega)
  simp [assemble, expandPseudo, assembleCore, uNum, hk, haddr]

/-! ### The obligations -/

/-- Settles O16, instruction by instruction: the encoder's header is legal, its length right, and the reader of its format
gives the operands back. -/
theorem decodeOfEncodeIsTheInstruction : Obligations.DecodeOfEncodeIsTheInstruction :=
  fun _ => decode_encode

/-- Settles O17: a legal header holds only what the encoder writes, and so does every list of words a reader accepts. -/
theorem encodeOfDecodeIsTheCode : Obligations.EncodeOfDecodeIsTheCode := by
  intro c i hd
  cases c with
  | cmd f => exact encode_of_decodeCmd (decode_cmd.mp hd)
  | wire g => exact encode_of_decodeWire hd

/-- Settles O12, by the three ways a frame is taken: turned away by a halted block, malformed, or run; what is run is no wire
frame, since its encoding is a command. -/
theorem everyCommandGetsExactlyOneResponse : Obligations.EveryCommandGetsExactlyOneResponse := by
  intro s f rest hw hc
  have hfetch := fetch_command hw hc
  cases hf : faultV s.fault with
  | true => exact ⟨_, .halted, step_of_fetch_done (hfetch.trans (fetchFrame_halted f hf)), rfl, rfl, by simp, by simp⟩
  | false =>
    cases hd : decodeCmd f with
    | error c =>
      exact ⟨_, .fault, step_of_fetch_done (hfetch.trans (fetchFrame_malformed hf hd)), rfl, rfl, by simp,
        by simp [State.faulted, (faultWord_fields _ c).1]⟩
    | ok i =>
      have hstep := step_of_fetch_run (hfetch.trans (fetchFrame_legal hf hd))
      obtain ⟨t, ht, hcmd, ⟨ws, hresp, hfault⟩ | ⟨op, c, rfl⟩⟩ :=
        exec_command_answers (encode_of_decodeCmd hd).2 { s with cmdIn := rest }
      · exact ⟨t, .ok ws, hstep.trans ht, hcmd, hresp, by simp, by simp [hfault, hf]⟩
      · exact ⟨_, .fault, hstep.trans ht, rfl, rfl, by simp, by simp [hf, (faultWord_fields op c).1]⟩

/-- Settles O18: a masked header equals the match field by field, and each unused field of the mask is all ones. -/
theorem headerIsLegalIffItMatchesItsRow : Obligations.HeaderIsLegalIffItMatchesItsRow :=
  ⟨fun _ o => ⟨code_of_opOf, fun ho => ho ▸ opOf_code o⟩, fun o => by cases o <;> decide, fun _ _ => headerOk_iff_matches⟩

/-- Settles O19: `ILLEGAL_OPCODE` is the cause exactly when no row has the frame's `OP`. -/
theorem unassignedOpcodesAreIllegal : Obligations.UnassignedOpcodesAreIllegal :=
  ⟨fun _ => decodeCmd_illegal_iff.trans opOf_eq_none_iff,
    fun _ _ _ hw hc hf hd => step_of_fetch_done ((fetch_command hw hc).trans (fetchFrame_malformed hf hd))⟩

/-- Settles O21: an accepted frame is the encoding of its instruction, so it has the length the encoder gives it. -/
theorem acceptedFramesHaveTheirLength : Obligations.AcceptedFramesHaveTheirLength := by
  intro f i hd
  obtain ⟨hwf, he⟩ := encode_of_decodeCmd hd
  cases i with
  | fbWrite e x y wd ht rows =>
    cases he
    obtain ⟨hlen, -⟩ := wf_fbWrite_iff.mp hwf
    simp [CmdFrame.length, hlen, cw, s32]
    omega
  | brSet | brFlip | brExtract | ddIntensityPd =>
    cases he
    simp [CmdFrame.length, cw]
    omega
  | brReverse =>
    cases he
    simp [CmdFrame.length, cw]
  | fbClear | fbClearAll | fbTurnDot | fbExtH | fbExtV | fbWidth | fbHeight | ddInit | ddBcast | ddSend | ddIntensity |
    ddShutdown | ddTest | ddClear =>
    cases he
    rfl
  | _ => cases he

/-- Settles O23: each operand of a well-formed command is written as a number that reads back as that operand. -/
theorem assemblingALineGivesItsCommand : Obligations.AssemblingALineGivesItsCommand :=
  fun _ hwf => ⟨fun ⟨_, hi⟩ => assemble_disassemble hwf hi, fun ⟨_, hi⟩ => disassemble_wire hi⟩

/-- Settles O15, by running the decoder on each word. -/
theorem writtenOutWordsDecode : Obligations.WrittenOutWordsDecode :=
  ⟨rfl, rfl, rfl, rfl, rfl, rfl, rfl, rfl, rfl, rfl, rfl⟩

/-- Settles O22, by the rows of the wire map. -/
theorem onlyMappedWireAddressesDecode : Obligations.OnlyMappedWireAddressesDecode :=
  fun _ => decodeWire_eq_none_iff

/-- Settles O24: six expand to `FB.TURNDOT` or `DD.BCAST` with their operands, two to a `DD.SHUTDOWN` without any. -/
theorem pseudoInstructionsExpand : Obligations.PseudoInstructionsExpand :=
  ⟨assembleCore_turnDot true, assembleCore_turnDot false, rfl, rfl, rfl, fun _ d hk => assemble_digit hk d,
    assembleCore_bcast 9, assembleCore_bcast 11⟩

end Sys2Proof.Machine
end

section
/-! PROOFS. The statements of 40_bitrange: each command answers the words of a value known bit by bit, or takes `BR_START`. -/

namespace Sys2Proof.Machine

variable {n : Byte} {start : Word} {i : Instr} {s : State}

/-! ### The value of a result (40_bitrange R102 to R111) -/

/-- The mask has no bit from `N` up, so a flipped `N`-bit value has none (40_bitrange R105). -/
theorem xor_maskN_lt {k val : Nat} (a len : Nat) (hv : val < 2 ^ k) : val ^^^ maskN k a len < 2 ^ k :=
  Nat.xor_lt_two_pow hv (maskN_lt k a len)

/-- The bit at place `i` goes to place `N - 1 - i` and from there back to `i` (40_bitrange R112). -/
theorem revN_revN {k val : Nat} (hv : val < 2 ^ k) : revN k (revN k val) = val := by
  refine Nat.eq_of_testBit_eq fun i => ?_
  rw [testBit_revN, testBit_revN]
  by_cases hi : i < k
  · have hback : k - 1 - (k - 1 - i) = i := by omega
    have hlt : k - 1 - i < k := by omega
    simp [hi, hback, hlt]
  · simp [hi, testBit_eq_false_of_lt hv (Nat.not_lt.mp hi)]

/-! ### The answer of a command (30_encoding R86) -/

/-- `i` answers `OK` with the words of the `b`-bit value whose bit `k` is `bit k`, and changes nothing else. -/
def AnswersBits (i : Instr) (s : State) (b : Nat) (bit : Nat → Bool) : Prop :=
  ∃ ws : List Word, exec i s = .next (s.answered ws) ∧ ws.length = (b + 31) / 32 ∧ wordsVal ws < 2 ^ b ∧
    ∀ k, k < b → (wordsVal ws).testBit k = bit k

/-- A command that answers the words of a value answers the bits of that value, when it fits. -/
theorem answersBits_of_exec {b val : Nat} {bit : Nat → Bool} (he : exec i s = .next (s.answered (wordsOf (cw b) val)))
    (hv : val < 2 ^ b) (hbit : ∀ k, k < b → val.testBit k = bit k) : AnswersBits i s b bit := by
  refine ⟨_, he, length_wordsOf _ _, ?_⟩
  rw [wordsVal_wordsOf_of_lt hv]
  exact ⟨hv, hbit⟩

/-- A command that answers the words of `op` of its operand, for an `op` that undoes itself: run again on its result, it
answers the words of the first operand. -/
theorem answers_operand_of_involution {b val : Nat} {cmd : Nat → Instr} {op : Nat → Nat}
    (he : ∀ v u, exec (cmd v) u = .next (u.answered (wordsOf (cw b) (op v)))) (hlt : op val < 2 ^ b)
    (hinv : op (op val) = val) : ∃ ws : List Word, exec (cmd val) s = .next (s.answered ws) ∧
      ∀ u : State, exec (cmd (wordsVal ws)) u = .next (u.answered (wordsOf (cw b) val)) := by
  refine ⟨_, he val s, fun u => ?_⟩
  rw [wordsVal_wordsOf_of_lt hlt, he, hinv]

/-! ### The check of `START` (40_bitrange R101)

The three commands with a start operand have one form: `BR_START` from `N` up, and below it the words of their value. -/

theorem exec_brSet_of_lt (v : Bool) (len : Word) (val : Nat) (s : State) (h : start.toNat < n.toNat) :
    exec (.brSet v n start len val) s =
      .next (s.answered (wordsOf (cw n.toNat) (setOrClear v val (maskN n.toNat start.toNat len.toNat)))) :=
  if_neg (Nat.not_le.mpr h)

theorem exec_brFlip_of_lt (len : Word) (val : Nat) (s : State) (h : start.toNat < n.toNat) :
    exec (.brFlip n start len val) s =
      .next (s.answered (wordsOf (cw n.toNat) (val ^^^ maskN n.toNat start.toNat len.toNat))) :=
  if_neg (Nat.not_le.mpr h)

theorem exec_brExtract_of_lt (m : Byte) (val : Nat) (s : State) (h : start.toNat < n.toNat) :
    exec (.brExtract n m start val) s =
      .next (s.answered (wordsOf (cw m.toNat) (extractN n.toNat m.toNat start.toNat val))) :=
  if_neg (Nat.not_le.mpr h)

/-- From `N` up, a command that checks `START` takes `BR_START` whole. -/
theorem faulted_of_start_check {op : Byte} {t : State}
    (he : exec i s = if u32 start ≥ n.toNat then .next (s.takeFault op .brStart) else .next t)
    (h : n.toNat ≤ start.toNat) (hf : faultV s.fault = false) : exec i s = .next (s.faulted op .brStart) := by
  rw [he, ← State.takeFault_of_running s _ _ hf]
  exact if_pos h

/-- `BR.REVERSE` has no start operand, so nothing to check (40_bitrange R111). -/
theorem exec_brReverse (n : Byte) (val : Nat) (s : State) :
    exec (.brReverse n val) s = .next (s.answered (wordsOf (cw n.toNat) (revN n.toNat val))) := rfl

/-! ### The obligations -/

/-- Settles O25: the mask has the bits of the range below `N`, and `v` replaces the operand's bits there. -/
theorem brSetEditsTheRange : Obligations.BrSetEditsTheRange := by
  intro v n start len val s hwf
  obtain ⟨-, hv⟩ := wf_brSet_iff.mp hwf
  refine ⟨fun h => ?_, faulted_of_start_check rfl⟩
  refine answersBits_of_exec (exec_brSet_of_lt v len val s h) (setOrClear_lt v hv (maskN_lt _ _ _)) fun k hk => ?_
  simp [hk]

/-- Settles O26: the mask has the bits of the range below `N`, and the exclusive or inverts the operand's bits there. -/
theorem brFlipInvertsTheRange : Obligations.BrFlipInvertsTheRange := by
  intro n start len val s hwf
  obtain ⟨-, hv⟩ := wf_brFlip_iff.mp hwf
  refine ⟨fun h => ?_, faulted_of_start_check rfl⟩
  refine answersBits_of_exec (exec_brFlip_of_lt len val s h) (xor_maskN_lt _ _ hv) fun k hk => ?_
  by_cases hr : start.toNat ≤ k ∧ k < start.toNat + len.toNat
  · simp [hk, hr]
  · simp [hk, hr, ← Bool.decide_and]

/-- Settles O27: bit `k` of the extracted value is the operand's bit `START + k`, or 0 from `N` up. -/
theorem brExtractCopiesTheSubRange : Obligations.BrExtractCopiesTheSubRange := by
  intro n m start val s _
  refine ⟨fun h => ?_, faulted_of_start_check rfl⟩
  refine answersBits_of_exec (exec_brExtract_of_lt m val s h) (extractN_lt _ _ _ _) fun k hk => ?_
  by_cases hin : start.toNat + k < n.toNat <;> simp [hk, hin]

/-- Settles O28: bit `k` of the reversed value is the operand's bit `N - 1 - k`. -/
theorem brReverseReversesTheBits : Obligations.BrReverseReversesTheBits := by
  intro n val s _
  refine answersBits_of_exec (exec_brReverse n val s) (revN_lt _ _) fun k hk => ?_
  simp [hk]

/-- Settles O29: the exclusive or with one mask, and the reversal of an `N`-bit value, are their own inverses. -/
theorem flipAndReverseUndoThemselves : Obligations.FlipAndReverseUndoThemselves := by
  constructor
  · intro n start len val s hwf h
    obtain ⟨-, hv⟩ := wf_brFlip_iff.mp hwf
    exact answers_operand_of_involution (exec_brFlip_of_lt len · · h) (xor_maskN_lt _ _ hv) (Nat.xor_xor_cancel_right _ _)
  · intro n val s hwf
    obtain ⟨-, hv⟩ := wf_brReverse_iff.mp hwf
    exact answers_operand_of_involution (exec_brReverse n) (revN_lt _ _) (revN_revN hv)

end Sys2Proof.Machine
end

section
/-! PROOFS. The statements of 41_framebuffer: what a drawing command leaves in each pixel and each row, what an extraction
returns, and that no `FB` command faults. -/

namespace Sys2Proof.Machine

variable {c : Instance} {fb : List Nat}

@[simp] theorem State.drew_cfg (s : State) (g : List Nat) : (s.drew g).cfg = s.cfg := rfl
@[simp] theorem State.drew_fb (s : State) (g : List Nat) : (s.drew g).fb = g := rfl

/-! ### Each command as one operation on the buffer

A drawing command replaces `FB` and answers no word, the others answer one word; none does more (41_framebuffer R130). -/

theorem exec_fbWrite (e : ElemWidth) (x y wd ht : Word) (rows : List Nat) (s : State) :
    exec (.fbWrite e x y wd ht rows) s =
      .next (s.drew (fbWritten s.cfg e.bits x.toInt y.toInt wd.toInt ht.toInt rows s.fb)) := rfl

theorem exec_fbClear (x y wd ht : Word) (s : State) :
    exec (.fbClear x y wd ht) s = .next (s.drew (fbCleared s.cfg x.toInt y.toInt wd.toInt ht.toInt s.fb)) := rfl

theorem exec_fbClearAll (s : State) : exec .fbClearAll s = .next (s.drew (List.replicate s.cfg.height 0)) := rfl

theorem exec_fbTurnDot (on : Bool) (x y : Word) (s : State) :
    exec (.fbTurnDot on x y) s = .next (s.drew (pixWriteClipped s.cfg s.fb x.toInt y.toInt on)) := rfl

theorem exec_fbExtH (rev : Bool) (x y : Word) (s : State) :
    exec (.fbExtH rev x y) s = .next (s.answered [(extH s.cfg s.fb x.toInt y.toInt rev).setWidth 32]) := rfl

theorem exec_fbExtV (rev : Bool) (x y : Word) (s : State) :
    exec (.fbExtV rev x y) s = .next (s.answered [(extV s.cfg s.fb x.toInt y.toInt rev).setWidth 32]) := rfl

theorem exec_fbWidth (s : State) : exec .fbWidth s = .next (s.answered [BitVec.ofNat 32 s.cfg.width]) := rfl

theorem exec_fbHeight (s : State) : exec .fbHeight s = .next (s.answered [BitVec.ofNat 32 s.cfg.height]) := rfl

/-- An `FB` command draws or answers one word. -/
theorem exec_fb_command {i : Instr} (s : State)
    (hi : (∃ e x y wd ht rows, i = .fbWrite e x y wd ht rows) ∨ (∃ x y wd ht, i = .fbClear x y wd ht) ∨ i = .fbClearAll ∨
      (∃ on x y, i = .fbTurnDot on x y) ∨ (∃ rev x y, i = .fbExtH rev x y) ∨ (∃ rev x y, i = .fbExtV rev x y) ∨
      i = .fbWidth ∨ i = .fbHeight) :
    (∃ g, exec i s = .next (s.drew g)) ∨ ∃ w, exec i s = .next (s.answered [w]) := by
  obtain ⟨e, x, y, wd, ht, rows, rfl⟩ | ⟨x, y, wd, ht, rfl⟩ | rfl | ⟨on, x, y, rfl⟩ | ⟨rev, x, y, rfl⟩ | ⟨rev, x, y, rfl⟩ |
    rfl | rfl := hi
  · exact .inl ⟨_, exec_fbWrite e x y wd ht rows s⟩
  · exact .inl ⟨_, exec_fbClear x y wd ht s⟩
  · exact .inl ⟨_, exec_fbClearAll s⟩
  · exact .inl ⟨_, exec_fbTurnDot on x y s⟩
  · exact .inr ⟨_, exec_fbExtH rev x y s⟩
  · exact .inr ⟨_, exec_fbExtV rev x y s⟩
  · exact .inr ⟨_, exec_fbWidth s⟩
  · exact .inr ⟨_, exec_fbHeight s⟩

/-- The dimensions of a legal configuration fit in a word (00_scope R9). -/
theorem dimensions_lt_of_legal (h : c.legal = true) : c.width < 2 ^ 32 ∧ c.height < 2 ^ 32 := by
  simp only [Instance.legal, Bool.and_eq_true, decide_eq_true_eq] at h
  omega

/-! ### Pixels and the row storage (00_scope R16, 10_state R24) -/

/-- A clipped read in terms of the rows. -/
theorem pixOr_eq_row (X Y : Int) : pixOr c fb X Y =
    if 0 ≤ X ∧ X < c.width ∧ 0 ≤ Y ∧ Y < c.height then (fb.getD Y.toNat 0).testBit (c.width - X.toNat - 1) else false := by
  by_cases hin : inFb c X Y = true
  · rw [if_pos ((inFb_iff X Y).mp hin), pixOr, hin, Bool.true_and, pixRead]
  · rw [if_neg fun h => hin ((inFb_iff X Y).mpr h), pixOr, Bool.eq_false_of_not_eq_true hin, Bool.false_and]

theorem pixOr_outside {X Y : Int} (h : X < 0 ∨ c.width ≤ X ∨ Y < 0 ∨ c.height ≤ Y) : pixOr c fb X Y = false := by
  rw [pixOr_eq_row, if_neg (by omega)]

theorem pixOr_cleared (X Y : Int) : pixOr c (List.replicate c.height 0) X Y = false := by
  rw [pixOr_eq_row, List.getD_eq_getElem?_getD, List.getElem?_getD_replicate_default_eq, Nat.zero_testBit, ite_self]

/-- Writing a pixel changes one bit of one row. -/
theorem testBit_row_pixWrite {width x y : Nat} (hy : y < fb.length) (b : Bool) (Y j : Nat) :
    ((pixWrite width fb x y b).getD Y 0).testBit j =
      if Y = y ∧ j = width - x - 1 then b else (fb.getD Y 0).testBit j := by
  by_cases h : Y = y
  · subst h
    simp [pixWrite, List.getD_eq_getElem?_getD, hy]
  · simp [pixWrite, List.getD_eq_getElem?_getD, List.getElem?_set_ne (Ne.symm h), h]

theorem pixWriteClipped_inside {X Y : Int} (h : inFb c X Y = true) (b : Bool) :
    pixWriteClipped c fb X Y b = pixWrite c.width fb X.toNat Y.toNat b := if_pos h

theorem pixWriteClipped_outside {X Y : Int} (h : ¬ inFb c X Y = true) (b : Bool) : pixWriteClipped c fb X Y b = fb :=
  if_neg h

/-! ### The row-level form of a write (41_framebuffer R132) -/

/-- Values of one width are equal when their bits are. -/
theorem eq_of_testBit_eq_below {n v v' : Nat} (hv : v < 2 ^ n) (hv' : v' < 2 ^ n)
    (h : ∀ j, j < n → v.testBit j = v'.testBit j) : v = v' := by
  refine Nat.eq_of_testBit_eq fun j => ?_
  rcases Nat.lt_or_ge j n with hj | hj
  · exact h j hj
  · rw [testBit_eq_false_of_lt hv hj, testBit_eq_false_of_lt hv' hj]

/-- A row with the bits of a mask taken from another value. -/
def mergeRow (mask old new : Nat) : Nat := (old ^^^ (old &&& mask)) ||| (new &&& mask)

@[simp] theorem testBit_mergeRow (mask old new j : Nat) :
    (mergeRow mask old new).testBit j = if mask.testBit j then new.testBit j else old.testBit j := by
  cases hm : mask.testBit j <;> simp [mergeRow, hm]

/-- A value shifted left by a signed amount. -/
def shiftRow (v : Nat) (sh : Int) : Nat := if 0 ≤ sh then v <<< sh.toNat else v >>> (-sh).toNat

@[simp] theorem testBit_shiftRow (v : Nat) (sh : Int) (j : Nat) :
    (shiftRow v sh).testBit j = (decide (sh ≤ j) && v.testBit (j - sh).toNat) := by
  unfold shiftRow
  split
  · have hle : sh.toNat ≤ j ↔ sh ≤ j := by omega
    have hsub : j - sh.toNat = (j - sh).toNat := by omega
    simp [hle, hsub]
  · have hle : sh ≤ j := by omega
    have hadd : (-sh).toNat + j = (j - sh).toNat := by omega
    simp [hle, hadd]

/-- The columns of the rectangle that are in the buffer, as bits of a row. -/
def visibleMask (c : Instance) (x w : Int) : Nat :=
  maskN c.width (c.width - min (x + w) c.width).toNat (min (x + w) c.width - max x 0).toNat

/-- Bit `j` of a row is column `X = WIDTH - 1 - j`. -/
theorem testBit_visibleMask {x w X : Int} {j : Nat} (hj : j < c.width) (hX : X = (c.width - 1 - j : Nat)) :
    (visibleMask c x w).testBit j = decide (x ≤ X ∧ X < x + w) := by
  rw [visibleMask, testBit_maskN, Bool.eq_iff_iff]
  simp only [Bool.and_eq_true, decide_eq_true_eq]
  omega

/-- A row of the rectangle after a write: the visible columns hold the shifted source row. -/
def writtenRow (c : Instance) (x w : Int) (bits old : Nat) : Nat :=
  mergeRow (visibleMask c x w) old (shiftRow (bits % 2 ^ w.toNat) (c.width - x - w))

theorem testBit_writtenRow {x w X : Int} {bits old j : Nat} (hj : j < c.width) (hX : X = (c.width - 1 - j : Nat)) :
    (writtenRow c x w bits old).testBit j =
      if x ≤ X ∧ X < x + w then bits.testBit (x + w - 1 - X).toNat else old.testBit j := by
  rw [writtenRow, testBit_mergeRow, testBit_visibleMask hj hX]
  by_cases hcol : x ≤ X ∧ X < x + w
  · have hshift : (c.width : Int) - x - w ≤ j := by omega
    have hbit : ((j : Int) - (c.width - x - w)).toNat = (x + w - 1 - X).toNat := by omega
    have hlow : (x + w - 1 - X).toNat < w.toNat := by omega
    rw [if_pos (decide_eq_true hcol), if_pos hcol, testBit_shiftRow, hbit, Nat.testBit_mod_two_pow]
    simp only [hshift, hlow, decide_true, Bool.true_and]
  · rw [if_neg (by simpa using hcol), if_neg hcol]

theorem writtenRow_lt {x w : Int} {bits old : Nat} (h : old < 2 ^ c.width) : writtenRow c x w bits old < 2 ^ c.width :=
  Nat.lt_pow_two_of_testBit _ fun j hj => by
    simp [writtenRow, visibleMask, Nat.not_lt.mpr hj, testBit_eq_false_of_lt h hj]

/-- The rows a write touches: those of the rectangle, when it passes the no-op test (41_framebuffer R131). -/
abbrev RowAffected (c : Instance) (x y w ht : Int) (Y : Nat) : Prop :=
  ¬ ((c.width : Int) ≤ x ∨ (c.height : Int) ≤ y ∨ x + w ≤ 0 ∨ y + ht ≤ 0) ∧ y ≤ Y ∧ (Y : Int) < y + ht

/-- A row of the buffer with a pixel in the rectangle is affected. -/
theorem rowAffected_of_mem {x y w ht X : Int} {Y : Nat} (hin : inFb c X Y = true)
    (hr : x ≤ X ∧ X < x + w ∧ y ≤ Y ∧ (Y : Int) < y + ht) : RowAffected c x y w ht Y := by
  rw [inFb_iff] at hin
  omega

/-- The two forms of a write agree, bit by bit of each row. -/
theorem fbWritten_row (h : Memory.wf c fb = true) (sz : Nat) (x y wd ht : Int) (rows : List Nat) {Y : Nat}
    (hY : Y < c.height) :
    (fbWritten c sz x y wd ht rows fb).getD Y 0 =
      if RowAffected c x y (min wd sz) ht Y then
        writtenRow c x (min wd sz) (rows.getD (Y - y).toNat 0) (fb.getD Y 0)
      else fb.getD Y 0 := by
  obtain ⟨hwf, hpix⟩ := fbWritten_spec h sz x y wd ht rows
  have hold := Memory.wf_row h Y
  refine eq_of_testBit_eq_below (Memory.wf_row hwf Y) ?_ fun j hj => ?_
  · split
    · exact writtenRow_lt hold
    · exact hold
  · have hin : inFb c (c.width - 1 - j : Nat) Y = true := by rw [inFb_iff]; omega
    rw [testBit_row _ hY hj, hpix]
    split
    · next hr =>
      obtain ⟨-, hx, hx', hy⟩ := hr
      rw [if_pos (rowAffected_of_mem hin ⟨hx, hx', hy⟩), testBit_writtenRow hj rfl, if_pos ⟨hx, hx'⟩]
    · next hr =>
      rw [← testBit_row fb hY hj]
      split
      · next ha =>
        obtain ⟨-, hy⟩ := ha
        rw [testBit_writtenRow hj rfl, if_neg fun ⟨hx, hx'⟩ => hr ⟨hin, hx, hx', hy⟩]
      · rfl

/-! ### Extracted bytes (41_framebuffer R140, R141) -/

/-- Eight columns that are all 0, in either order. -/
theorem extH_eq_zero {x y : Int} (h : ∀ X, x ≤ X → X < x + 8 → pixOr c fb X y = false) (rev : Bool) :
    extH c fb x y rev = 0 := by
  refine BitVec.eq_of_getLsbD_eq fun i hi => ?_
  rw [getLsbD_extH x y rev hi, h _ (by omega) (by omega), h _ (by omega) (by omega), ite_self]
  exact BitVec.getLsbD_zero.symm

/-- Eight rows that are all 0, in either order. -/
theorem extV_eq_zero {x y : Int} (h : ∀ Y, y ≤ Y → Y < y + 8 → pixOr c fb x Y = false) (rev : Bool) :
    extV c fb x y rev = 0 := by
  refine BitVec.eq_of_getLsbD_eq fun i hi => ?_
  rw [getLsbD_extV x y rev hi, h _ (by omega) (by omega), h _ (by omega) (by omega), ite_self]
  exact BitVec.getLsbD_zero.symm

/-- Eight columns that hold the low bits of a value, most significant first, as a result word. -/
theorem extH_eq_low_byte {x y : Int} {v : Nat} (h : ∀ X, x ≤ X → X < x + 8 → pixOr c fb X y = v.testBit (x + 7 - X).toNat) :
    (extH c fb x y false).setWidth 32 = BitVec.ofNat 32 (v % 256) := by
  have hbyte : extH c fb x y false = BitVec.ofNat 8 v := by
    refine BitVec.eq_of_getLsbD_eq fun i hi => ?_
    have hcol : (x + 7 - (x + 7 - (i : Int))).toNat = i := by omega
    rw [getLsbD_extH x y false hi, if_neg Bool.false_ne_true, h _ (by omega) (by omega), hcol, BitVec.getLsbD_ofNat]
    simp [hi]
  refine BitVec.eq_of_toNat_eq ?_
  rw [hbyte, BitVec.toNat_setWidth, BitVec.toNat_ofNat, BitVec.toNat_ofNat]

/-! ### Reading a write back (41_framebuffer R145) -/

/-- Every element width is at least that of a byte (00_scope R11), so a narrow write is not clamped. -/
theorem min_elemWidth_bits (e : ElemWidth) {w : Int} (hw : w ≤ 8) : min w e.bits = w := by
  cases e <;> simp only [ElemWidth.bits] <;> omega

/-- An eight-column write inside the buffer is returned row by row. -/
theorem extH_of_written (e : ElemWidth) {x y ht yr : Int} {rows : List Nat} {r : Nat} (h : Memory.wf c fb = true)
    (hx : 0 ≤ x) (hx' : x + 8 ≤ c.width) (hy : 0 ≤ y) (hy' : y + ht ≤ c.height) (hr : r < ht) (hyr : yr = y + r) :
    (extH c (fbWritten c e.bits x y 8 ht rows fb) x yr false).setWidth 32 = BitVec.ofNat 32 (rows.getD r 0 % 256) := by
  refine extH_eq_low_byte fun X hX hX' => ?_
  have hin : inFb c X yr = true := by rw [inFb_iff]; omega
  have hrow : (yr - y).toNat = r := by omega
  have hcol : x + 8 - 1 - X = x + 7 - X := by omega
  rw [(fbWritten_spec h ..).2, min_elemWidth_bits e le_rfl, if_pos ⟨hin, hX, hX', by omega, by omega⟩, hrow, hcol]

/-- A one-column write of eight rows inside the buffer is returned with row 0 as bit 7. -/
theorem extV_of_written (e : ElemWidth) {x y : Int} {rows : List Nat} {r : Nat} (h : Memory.wf c fb = true)
    (hx : 0 ≤ x) (hx' : x + 1 ≤ c.width) (hy : 0 ≤ y) (hy' : y + 8 ≤ c.height) (hr : r < 8) :
    (extV c (fbWritten c e.bits x y 1 8 rows fb) x y false).getLsbD (7 - r) = (rows.getD r 0).testBit 0 := by
  have hY : y + 7 - (7 - r : Nat) = y + r := by omega
  have hin : inFb c x (y + r) = true := by rw [inFb_iff]; omega
  have hrow : (y + r - y).toNat = r := by omega
  have hcol : (x + 1 - 1 - x).toNat = 0 := by omega
  rw [getLsbD_extV _ _ _ (by omega), if_neg Bool.false_ne_true, hY, (fbWritten_spec h ..).2, min_elemWidth_bits e (by decide),
    if_pos ⟨hin, le_rfl, by omega, by omega, by omega⟩, hrow, hcol]

/-! ### The obligations -/

/-- Settles O31: a write sets the visible pixels of its rectangle, whose width the element width bounds. -/
theorem fbWriteOverwritesItsClippedRectangle : Obligations.FbWriteOverwritesItsClippedRectangle := by
  intro e x y wd ht rows s _ h
  obtain ⟨hwf, hpix⟩ := fbWritten_spec h e.bits x.toInt y.toInt wd.toInt ht.toInt rows
  refine ⟨_, exec_fbWrite e x y wd ht rows s, hwf, fun X Y hX hX' hY hY' => ?_⟩
  have hin : inFb s.cfg X Y = true := (inFb_iff X Y).mpr ⟨hX, hX', hY, hY'⟩
  simp only [hpix, hin, true_and]

/-- Settles O32: a row is known by its bits, and each of them is a pixel that the write sets or keeps. -/
theorem fbWriteHasItsRowLevelForm : Obligations.FbWriteHasItsRowLevelForm := by
  intro e x y wd ht rows s _ h
  obtain ⟨hwf, -⟩ := fbWritten_spec h e.bits x.toInt y.toInt wd.toInt ht.toInt rows
  refine ⟨_, exec_fbWrite e x y wd ht rows s, (Memory.wf_length hwf).trans (Memory.wf_length h).symm, fun Y hY => ?_⟩
  exact fbWritten_row h e.bits x.toInt y.toInt wd.toInt ht.toInt rows hY

/-- Settles O33: a clear sets the pixels of its rectangle to 0. -/
theorem fbClearZeroesItsClippedRectangle : Obligations.FbClearZeroesItsClippedRectangle := by
  intro x y wd ht s h
  obtain ⟨hwf, hpix⟩ := fbCleared_spec h x.toInt y.toInt wd.toInt ht.toInt
  exact ⟨_, exec_fbClear x y wd ht s, hwf, hpix⟩

/-- Settles O35: inside the buffer one bit of the storage is written, outside it none. -/
theorem fbTurnDotWritesOnePixel : Obligations.FbTurnDotWritesOnePixel := by
  intro on x y s h
  refine ⟨_, exec_fbTurnDot on x y s, pixWriteClipped_wf h _ _ on, fun hx hx' hy hy' Y j => ?_, fun hout => ?_⟩
  · have hrow : y.toInt.toNat < s.fb.length := by rw [Memory.wf_length h]; omega
    rw [pixWriteClipped_inside ((inFb_iff _ _).mpr ⟨hx, hx', hy, hy'⟩), testBit_row_pixWrite hrow]
  · refine pixWriteClipped_outside (fun hin => ?_) on
    rw [inFb_iff] at hin
    omega

/-- Settles O36: each bit of the byte is a clipped read of one column. -/
theorem fbExtHReturnsEightColumns : Obligations.FbExtHReturnsEightColumns := by
  intro rev x y s
  refine ⟨_, exec_fbExtH rev x y s, fun i hi => ?_, fun hout => extH_eq_zero (fun X _ _ => pixOr_outside (by omega)) rev⟩
  rw [getLsbD_extH _ _ rev hi, ← apply_ite (pixOr s.cfg s.fb · y.toInt), pixOr_eq_row]

/-- Settles O37: each bit of the byte is a clipped read of one row. -/
theorem fbExtVReturnsEightRows : Obligations.FbExtVReturnsEightRows := by
  intro rev x y s
  refine ⟨_, exec_fbExtV rev x y s, fun i hi => ?_, fun hout => extV_eq_zero (fun Y _ _ => pixOr_outside (by omega)) rev⟩
  rw [getLsbD_extV _ _ rev hi, ← apply_ite (pixOr s.cfg s.fb x.toInt), pixOr_eq_row]

/-- Settles O40: the pixels an extraction reads are those the write or the clear has just set. -/
theorem writtenPatternsReadBack : Obligations.WrittenPatternsReadBack := by
  refine ⟨fun e x y ht rows s hwf h hx hx' hy hy' => ?_, fun e x y rows s _ h hx hx' hy hy' => ?_,
    fun x y wd ht X Y s h hX hY => ?_⟩
  · refine ⟨_, exec_fbWrite e x y 8 ht rows s, fun r yr hr hyr => ?_⟩
    obtain ⟨hlen, -⟩ := wf_fbWrite_iff.mp hwf
    have hrow : (r : Int) < ht.toInt := by rw [s32] at hlen; omega
    have hwidth : (8 : Word).toInt = 8 := by decide
    rw [exec_fbExtH, State.drew_cfg, State.drew_fb, hwidth, extH_of_written e h hx hx' hy hy' hrow hyr]
  · exact ⟨_, _, exec_fbWrite e x y 1 8 rows s, exec_fbExtV false x y _, fun r hr => extV_of_written e h hx hx' hy hy' hr⟩
  · obtain ⟨-, hpix⟩ := fbCleared_spec h x.toInt y.toInt wd.toInt ht.toInt
    refine ⟨_, exec_fbClear x y wd ht s, fun hXw hYh rev => ?_, fun hXw hYh rev => ?_⟩
    · rw [exec_fbExtH, State.drew_cfg, State.drew_fb, extH_eq_zero fun X' hX' hX'' =>
        (hpix X' _).trans (if_pos ⟨by omega, by omega, by omega, by omega⟩)]
      rfl
    · rw [exec_fbExtV, State.drew_cfg, State.drew_fb, extV_eq_zero fun Y' hY' hY'' =>
        (hpix _ Y').trans (if_pos ⟨by omega, by omega, by omega, by omega⟩)]
      rfl

/-- Settles O30: beside its `OK` response a drawing command changes `FB` alone, and any other `FB` command nothing. -/
theorem noFrameBufferCommandFaults : Obligations.NoFrameBufferCommandFaults := by
  intro i s hi
  obtain ⟨g, he⟩ | ⟨w, he⟩ := exec_fb_command s hi
  · exact ⟨_, [], he, rfl, rfl, rfl, rfl, rfl, rfl, rfl, rfl⟩
  · exact ⟨_, [w], he, rfl, rfl, rfl, rfl, rfl, rfl, rfl, rfl⟩

/-- Settles O34: each row of the new buffer is 0, and with it each pixel. -/
theorem fbClearAllZeroesEveryRow : Obligations.FbClearAllZeroesEveryRow :=
  fun s => ⟨_, exec_fbClearAll s, List.length_replicate, cleared_wf, fun _ hY => List.getElem?_replicate_of_lt hY,
    pixOr_cleared⟩

/-- Settles O38: a legal dimension fits in a word. -/
theorem accessorsReturnTheDimensions : Obligations.AccessorsReturnTheDimensions := by
  intro s hc
  obtain ⟨hw, hh⟩ := dimensions_lt_of_legal hc
  exact ⟨⟨_, exec_fbWidth s, (BitVec.toNat_ofNat ..).trans (Nat.mod_eq_of_lt hw)⟩,
    ⟨_, exec_fbHeight s, (BitVec.toNat_ofNat ..).trans (Nat.mod_eq_of_lt hh)⟩⟩

end Sys2Proof.Machine
end

section
/-! PROOFS. The statements of 42_display_driver: what each driver command sends and what the devices hold afterwards, what a
device does with a frame, and that the pins deliver the transactions. -/

namespace Sys2Proof.Machine

variable {s t : State} {i : Instr}

/-! ### What an instruction sends (42_display_driver R170) -/

/-- Of the shapes of an effect, only a driver command's sends, and it leaves `FAULT` alone. -/
theorem Effect.sends (he : Effect s t) : ∃ ts, t.busHist = s.busHist ++ ts ∧ (∀ x ∈ ts, x.length = s.cfg.n) ∧
    (ts ≠ [] → t.fb = s.fb ∧ t.fault = s.fault ∧ t.resp = s.resp ++ [.ok []]) ∧
    (t.fault = s.fault ∨ (ts = [] ∧ ∃ op c, t = s.faulted op c)) := by
  cases he with
  | answered | drawn | latched | unchanged => exact ⟨[], by simp, by simp, by simp, .inl rfl⟩
  | driven ts hts => exact ⟨ts, by simp, hts, by simp, .inl (by simp)⟩
  | faulted op c =>
    refine ⟨[], by simp, by simp, by simp, ?_⟩
    cases hf : faultV s.fault with
    | true => exact .inl (by simp [hf])
    | false => exact .inr ⟨rfl, op, c, State.takeFault_of_running s op c hf⟩

/-- No driver command draws. -/
theorem writesFb_driver (hi : i = .ddInit ∨ (∃ a d, i = .ddBcast a d) ∨ i = .ddSend ∨ (∃ v, i = .ddIntensity v) ∨
    (∃ vs, i = .ddIntensityPd vs) ∨ (∃ on, i = .ddShutdown on) ∨ (∃ on, i = .ddTest on) ∨ i = .ddClear) :
    writesFb i = false := by
  obtain rfl | ⟨a, d, rfl⟩ | rfl | ⟨v, rfl⟩ | ⟨vs, rfl⟩ | ⟨on, rfl⟩ | ⟨on, rfl⟩ | rfl := hi <;> rfl

/-! ### Writing the devices' registers (42_display_driver R171, R192)

Each transaction of a driver command writes one register of each device. -/

theorem regAt_of_regAddr {a : Byte} {r : DevReg} (h : regAddr r = a.toNat) : regAt a = some r := by
  have ha : BitVec.ofNat 8 (regAddr r) = a := by simp [h]
  rw [← ha, regAt_regAddr]

/-- The frame that writes a register. -/
def writeFrame (w : DevReg × Byte) : Frame := frame (BitVec.ofNat 8 (regAddr w.1)) w.2

/-- The broadcast that writes a register of every device. -/
def bcastWrite (c : Instance) (w : DevReg × Byte) : Transaction := List.replicate c.n (writeFrame w)

/-- What a register of a device holds after some writes, from what it held before. -/
def readAfter (r : DevReg) (ws : List (DevReg × Byte)) (old : Option Byte) : Option Byte :=
  ws.foldl (fun v w => if r = w.1 then some w.2 else v) old

theorem readAfter_of_forall_ne {r : DevReg} {ws : List (DevReg × Byte)} (h : ∀ w ∈ ws, r ≠ w.1) (old : Option Byte) :
    readAfter r ws old = old := by
  induction ws with
  | nil => rfl
  | cons w ws ih =>
    rw [List.forall_mem_cons] at h
    rw [readAfter, List.foldl_cons, if_neg h.1]
    exact ih h.2

/-- Full transactions that each write one register of device `k`, from first to last. -/
theorem State.drive_devRead_of_writes {ι : Type} {l : List ι} {tx : ι → Transaction} {w : ι → DevReg × Byte} {k : Nat}
    (hk : k < s.devreg.length) (hl : ∀ j ∈ l, (tx j).length = s.cfg.n ∧ (tx j)[k]? = some (writeFrame (w j))) (r : DevReg) :
    (s.drive (l.map tx)).devRead k r = readAfter r (l.map w) (s.devRead k r) := by
  rw [State.drive_devRead]
  induction l generalizing s with
  | nil => rfl
  | cons j l ih =>
    obtain ⟨⟨hn, hj⟩, hl⟩ := List.forall_mem_cons.mp hl
    have hfirst := State.emit_devRead s hn hk hj (r0 := (w j).1) (by simp [writeFrame, regAt_regAddr]) r
    simp only [writeFrame, frameData_frame] at hfirst
    have hrest := ih (s := s.emit (tx j)) (by simpa using hk) (by simpa using hl)
    rw [hfirst] at hrest
    exact hrest

/-- A command that broadcasts some writes leaves in every register what they leave there. -/
theorem sets_registers_of_bcasts {ws : List (DevReg × Byte)} (he : exec i s = .next (s.drive (ws.map (bcastWrite s.cfg))))
    (hne : ws ≠ []) (hd : s.devreg.length = s.cfg.n) :
    ∃ t, exec i s = .next t ∧ s.Sent t (ws.map (bcastWrite s.cfg)) ∧
      ∀ k, k < s.cfg.n → ∀ r, t.devRead k r = readAfter r ws (s.devRead k r) := by
  refine ⟨_, he, State.sent_drive s _ (by simpa using hne), fun k hk r => ?_⟩
  have h := State.drive_devRead_of_writes (l := ws) (tx := bcastWrite s.cfg) (w := id) (hd ▸ hk)
    (fun w _ => by simp [bcastWrite, hk]) r
  rwa [List.map_id] at h

/-- The writes of `DD.INIT` (42_display_driver R173). -/
def initWrites : List (DevReg × Byte) :=
  [(.shutdown, 0x00), (.displayTest, 0x00), (.intensity, 0x0F), (.scanLimit, 0x07), (.decodeMode, 0x00)]

theorem exec_ddInit (s : State) : exec .ddInit s = .next (s.drive (initWrites.map (bcastWrite s.cfg))) := rfl

/-- The writes of `DD.CLEAR` (42_display_driver R185). -/
def clearWrites : List (DevReg × Byte) :=
  [(.row0, 0x00), (.row1, 0x00), (.row2, 0x00), (.row3, 0x00), (.row4, 0x00), (.row5, 0x00), (.row6, 0x00), (.row7, 0x00)]

theorem exec_ddClear (s : State) : exec .ddClear s = .next (s.drive (clearWrites.map (bcastWrite s.cfg))) := rfl

theorem exec_ddShutdown (on : Bool) (s : State) : exec (.ddShutdown on) s =
    .next (s.drive ([(.shutdown, if on then 0x00 else 0x01)].map (bcastWrite s.cfg))) := rfl

theorem exec_ddTest (on : Bool) (s : State) : exec (.ddTest on) s =
    .next (s.drive ([(.displayTest, if on then 0x01 else 0x00)].map (bcastWrite s.cfg))) := rfl

/-! ### Intensity values (42_display_driver R181, R182) -/

/-- The write that sets a device's intensity to a value. -/
def intensityWrite (v : Word) : DevReg × Byte := (.intensity, BitVec.ofNat 8 v.toNat)

theorem exec_ddIntensity_of_le {v : Word} (hv : v.toNat ≤ 15) :
    exec (.ddIntensity v) s = .next (s.drive ([intensityWrite v].map (bcastWrite s.cfg))) :=
  if_neg (Nat.not_lt.mpr hv)

theorem exec_ddIntensityPd_of_le {vs : List Word} (hl : vs.length = s.cfg.n) (hv : ∀ v ∈ vs, v.toNat ≤ 15) :
    exec (.ddIntensityPd vs) s = .next (s.drive [vs.map (fun v => writeFrame (intensityWrite v))]) := by
  have hle : ¬ vs.any (fun v => decide (u32 v > 15)) = true := by simpa [u32] using hv
  exact (if_neg (not_not.mpr hl)).trans (if_neg hle)

/-! ### The rows of `DD.SEND` (42_display_driver R174 to R177) -/

theorem exec_ddSend (s : State) : exec .ddSend s = .next (s.drive (sendAll s.cfg s.fb)) := rfl

/-- The register row-within-cell `r` goes to: address `8 - r` (42_display_driver R175). -/
def sendReg (r : Nat) : DevReg := [.row7, .row6, .row5, .row4, .row3, .row2, .row1, .row0].getD r .row0

theorem regAddr_sendReg {r : Nat} (hr : r < 8) : regAddr (sendReg r) = 8 - r := by
  revert r; decide

theorem isRow_sendReg {r : Nat} (hr : r < 8) : isRow (sendReg r) = true := by
  simp [isRow, regAddr_sendReg hr]

theorem getElem?_sendRow {c : Instance} {k : Nat} {d : Descriptor} (hd : c.dev[k]? = some d) (fb : List Nat) (r : Nat) :
    (sendRow c fb r)[k]? = some (frame (BitVec.ofNat 8 (8 - r)) (rowByte c fb d r)) := by
  simp [sendRow, hd]

theorem getElem?_sendAll (c : Instance) (fb : List Nat) {r : Nat} (hr : r < 8) :
    (sendAll c fb)[r]? = some (sendRow c fb r) := by
  simp [sendAll, hr]

/-- The writes of `DD.SEND` to a device with descriptor `d`. -/
def sendWrites (c : Instance) (fb : List Nat) (d : Descriptor) : List (DevReg × Byte) :=
  (List.range 8).map (fun r => (sendReg r, rowByte c fb d r))

theorem drive_sendAll_devRead {k : Nat} {d : Descriptor} (hd : s.devreg.length = s.cfg.n) (hk : s.cfg.dev[k]? = some d)
    (reg : DevReg) : (s.drive (sendAll s.cfg s.fb)).devRead k reg =
      readAfter reg (sendWrites s.cfg s.fb d) (s.devRead k reg) := by
  have hlt : k < s.cfg.n := (List.getElem?_eq_some_iff.mp hk).1
  refine State.drive_devRead_of_writes (hd ▸ hlt) (fun r hr => ?_) reg
  rw [List.mem_range] at hr
  exact ⟨length_sendRow _ _ _, by rw [getElem?_sendRow hk, writeFrame, regAddr_sendReg hr]⟩

theorem readAfter_sendWrites_row (c : Instance) (fb : List Nat) (d : Descriptor) {r : Nat} (hr : r < 8) (old : Option Byte) :
    readAfter (sendReg r) (sendWrites c fb d) old = some (rowByte c fb d r) := by
  interval_cases r <;> rfl

theorem readAfter_sendWrites_control (c : Instance) (fb : List Nat) (d : Descriptor) {reg : DevReg} (h : isRow reg = false)
    (old : Option Byte) : readAfter reg (sendWrites c fb d) old = old := by
  refine readAfter_of_forall_ne (fun w hw heq => ?_) old
  obtain ⟨r, hr, rfl⟩ := List.mem_map.mp hw
  rw [heq, isRow_sendReg (List.mem_range.mp hr)] at h
  cases h

/-! ### Where a pixel goes on the wire (42_display_driver R179) -/

/-- Column `j` of a horizontal extraction is bit `7 - j` of the byte, or `j` when it is reversed. -/
theorem getLsbD_extH_column (c : Instance) (fb : List Nat) (x y : Int) (rev : Bool) {j : Nat} (hj : j < 8) :
    (extH c fb x y rev).getLsbD (if rev then j else 7 - j) = pixOr c fb (x + j) y := by
  have hj' : 7 - j < 8 := by omega
  have hx : x + 7 - ((7 - j : Nat) : Int) = x + j := by omega
  cases rev with
  | true => exact getLsbD_extH x y true hj
  | false => rw [← hx]; exact getLsbD_extH x y false hj'

/-- Row `j` of a vertical extraction is bit `7 - j` of the byte, or `j` when it is reversed. -/
theorem getLsbD_extV_row (c : Instance) (fb : List Nat) (x y : Int) (rev : Bool) {j : Nat} (hj : j < 8) :
    (extV c fb x y rev).getLsbD (if rev then j else 7 - j) = pixOr c fb x (y + j) := by
  have hj' : 7 - j < 8 := by omega
  have hy : y + 7 - ((7 - j : Nat) : Int) = y + j := by omega
  cases rev with
  | true => exact getLsbD_extV x y true hj
  | false => rw [← hy]; exact getLsbD_extV x y false hj'

/-- A bit of the byte of row-within-cell `r` is that data bit of the frame of address `8 - r`. -/
theorem pixel_on_wire {k A B : Nat} {d : Descriptor} {v : Bool} (hk : s.cfg.dev[k]? = some d) (r : Nat) (hr : r < 8)
    (hA : 8 - r = A) (hB : B < 8) (hv : (rowByte s.cfg s.fb d r).getLsbD B = v) :
    ∃ t tx f, exec .ddSend s = .next t ∧ tx ∈ t.busHist.drop s.busHist.length ∧ tx[k]? = some f ∧
      (frameAddr f).toNat = A ∧ f.getLsbD B = v := by
  refine ⟨_, _, _, exec_ddSend s, ?_, getElem?_sendRow hk s.fb r, ?_, ?_⟩
  · simpa using List.mem_of_getElem? (getElem?_sendAll s.cfg s.fb hr)
  · rw [frameAddr_frame, BitVec.toNat_ofNat]
    omega
  · rw [getLsbD_frame, if_pos hB, hv]

/-! ### A device and the frame it latches (42_display_driver R192, 30_encoding R87) -/

theorem fetch_wireFrame {k : Nat} {f : Frame} {rest : List (Nat × Frame)} (hw : s.wireIn = (k, f) :: rest) :
    fetch s = fetchWire k f { s with wireIn := rest } := by
  rw [fetch, hw]

theorem fetchWire_mapped {k : Nat} {f : Frame} (hk : k < s.cfg.n) (hi : decodeWire f = some i) :
    fetchWire k f s = .run i { s with latchDev := k } := by
  rw [fetchWire, if_pos hk, hi]

theorem fetchWire_unassigned {k : Nat} {f : Frame} (hk : k < s.cfg.n) (hf : decodeWire f = none) :
    fetchWire k f s = .done (s.devForget k) := by
  rw [fetchWire, if_pos hk, hf]

/-- A device the chain does not have has no register to read, so the bound of `State.devRead_devWrite` is not needed. -/
theorem State.devRead_devWrite_latching (h : s.latchDev < s.devreg.length) (k : Nat) (r r' : DevReg) (b : Byte) :
    (s.devWrite s.latchDev r b).devRead k r' = if k = s.latchDev ∧ r' = r then some b else s.devRead k r' := by
  by_cases hk : k < s.devreg.length
  · exact State.devRead_devWrite s hk r r' b
  · rw [if_neg (by omega)]
    simp [State.devRead, Nat.not_lt.mp hk]

/-- The instruction a mapped frame decodes to writes the register its address names, or none at the no-op address. -/
theorem exec_of_decodeWire {f : Frame} (h : decodeWire f = some i) :
    (frameAddr f = 0 ∧ ∀ u, exec i u = .next u) ∨
    ∃ r, regAt (frameAddr f) = some r ∧ ∀ u, exec i u = .next (u.devWrite u.latchDev r (frameData f)) := by
  unfold decodeWire at h
  split at h
  case h_1 ha =>
    cases h
    exact .inl ⟨BitVec.eq_of_toNat_eq ha, fun _ => rfl⟩
  case h_15 => cases h
  all_goals
    cases h
    exact .inr ⟨_, by simp [regAt, *], fun _ => rfl⟩

/-! ### The chain on the pins (42_display_driver R190)

The registers of a chain are one long register: their bits, farthest device and most significant bit first. A clock pulse
drops its first bit and takes `DIN` at its end. -/

/-- The bits of a frame in the order they are sent. -/
def frameBits (f : Frame) : List Bool := (List.range 16).map (fun j => f.getLsbD (15 - j))

/-- The bits of a chain of registers, or of the frames of a transaction. -/
def chainBits (rs : List Frame) : List Bool := rs.flatMap frameBits

@[simp] theorem length_frameBits (f : Frame) : (frameBits f).length = 16 := by simp [frameBits]

@[simp] theorem chainBits_cons (r : Frame) (rs : List Frame) : chainBits (r :: rs) = frameBits r ++ chainBits rs :=
  List.flatMap_cons

theorem length_chainBits (rs : List Frame) : (chainBits rs).length = 16 * rs.length := by
  induction rs with
  | nil => rfl
  | cons r rs ih => rw [chainBits_cons, List.length_append, length_frameBits, ih, List.length_cons]; omega

theorem frameBits_injective : Function.Injective frameBits := by
  intro f g h
  refine BitVec.eq_of_getLsbD_eq fun j hj => ?_
  have hj' := congrArg (·[15 - j]?) h
  simpa [frameBits, show 15 - j < 16 by omega, show 15 - (15 - j) = j by omega] using hj'

/-- Chains of one length with equal bits are equal. -/
theorem eq_of_chainBits_eq {rs fs : List Frame} (hl : rs.length = fs.length) (h : chainBits rs = chainBits fs) :
    rs = fs := by
  induction rs generalizing fs with
  | nil => exact (List.length_eq_zero_iff.mp hl.symm).symm
  | cons r rs ih =>
    obtain ⟨f, fs, rfl⟩ := List.exists_cons_of_length_eq_add_one hl.symm
    rw [chainBits_cons, chainBits_cons] at h
    obtain ⟨hr, hrs⟩ := List.append_inj h (by simp)
    rw [frameBits_injective hr, ih (by simpa using hl) hrs]

theorem getLsbD_shiftIn (r : Frame) (b : Bool) {j : Nat} (hj : j < 16) :
    (shiftIn r b).getLsbD j = if j = 0 then b else r.getLsbD (j - 1) := by
  have happ := BitVec.getLsbD_append (x := r.extractLsb' 0 15) (y := BitVec.ofBool b) (i := j)
  refine happ.trans ?_
  by_cases h0 : j = 0
  · simp [h0]
  · rw [if_neg (by omega), if_neg h0, BitVec.getLsbD_extractLsb']
    simp [show j - 1 < 15 by omega]

theorem frameBits_shiftIn (r : Frame) (b : Bool) : frameBits (shiftIn r b) = (frameBits r).drop 1 ++ [b] := by
  have htop : (List.range 15).map (fun j => (shiftIn r b).getLsbD (15 - j)) = (frameBits r).drop 1 := by
    refine List.map_congr_left (g := fun j => r.getLsbD (15 - (j + 1))) fun j hj => ?_
    rw [List.mem_range] at hj
    rw [getLsbD_shiftIn r b (by omega), if_neg (by omega), Nat.sub_sub]
  rw [frameBits, List.range_succ, List.map_append, htop, List.map_singleton, getLsbD_shiftIn r b (by omega)]
  rfl

theorem length_shiftChain (b : Bool) (rs : List Frame) : (shiftChain b rs).length = rs.length := by
  induction rs using shiftChain.induct with
  | case1 => rfl
  | case2 => rfl
  | case3 r r' rest ih => simpa [shiftChain] using ih

/-- One clock of the chain. -/
theorem chainBits_shiftChain (b : Bool) (rs : List Frame) : chainBits (shiftChain b rs) = (chainBits rs ++ [b]).drop 1 := by
  induction rs using shiftChain.induct with
  | case1 => rfl
  | case2 r =>
    rw [shiftChain, List.drop_append_of_le_length (by simp [length_chainBits])]
    simp [chainBits, frameBits_shiftIn]
  | case3 r r' rest ih =>
    have htop : r'.getLsbD 15 :: (chainBits (r' :: rest) ++ [b]).drop 1 = chainBits (r' :: rest) ++ [b] := rfl
    rw [shiftChain, chainBits_cons, ih, frameBits_shiftIn, List.append_assoc, List.singleton_append, htop, chainBits_cons r,
      List.append_assoc, List.drop_append_of_le_length (by simp)]

/-- The bus after one bit and its clock pulse. -/
def Bus.clockIn (b : Bus) (v : Bool) : Bus := { b with din := v, clk := false, shift := shiftChain v b.shift }

/-- The changes that send one bit. -/
def pulse (v : Bool) : List PinEvent := [.setDin v, .clkRise, .clkFall]

theorem frameEvents_eq_pulses (f : Frame) : frameEvents f = (frameBits f).flatMap pulse := by
  rw [frameBits, List.flatMap_map]
  rfl

theorem flatMap_frameEvents (fs : Transaction) : fs.flatMap frameEvents = (chainBits fs).flatMap pulse := by
  rw [chainBits, List.flatMap_assoc]
  exact congrArg fs.flatMap (funext frameEvents_eq_pulses)

theorem Bus.run_pulses (b : Bus) (bs : List Bool) : b.run (bs.flatMap pulse) = bs.foldl Bus.clockIn b := List.foldl_flatMap ..

/-- What clocking bits in does: each drops the first bit of the chain and stands at its end; nothing is latched. -/
theorem Bus.foldl_clockIn (bs : List Bool) (b : Bus) :
    chainBits (bs.foldl Bus.clockIn b).shift = (chainBits b.shift ++ bs).drop bs.length ∧
    (bs.foldl Bus.clockIn b).shift.length = b.shift.length ∧ (bs.foldl Bus.clockIn b).latched = b.latched ∧
    (b.clk = false → (bs.foldl Bus.clockIn b).clk = false) := by
  induction bs generalizing b with
  | nil => simp
  | cons v bs ih =>
    obtain ⟨hbits, hlen, hlatched, hclk⟩ := ih (b.clockIn v)
    refine ⟨?_, hlen.trans (length_shiftChain v _), hlatched, fun _ => hclk rfl⟩
    have hone : (chainBits b.shift ++ [v]).drop 1 ++ bs = (chainBits b.shift ++ v :: bs).drop 1 := by
      rw [← List.drop_append_of_le_length (by simp), List.append_assoc, List.singleton_append]
    rw [List.foldl_cons, hbits, Bus.clockIn, chainBits_shiftChain, hone, List.drop_drop, List.length_cons, Nat.add_comm]

/-- A transaction on the pins of a chain of as many devices: the frames stand in the devices, which latch them. -/
theorem Bus.run_wireForm {b : Bus} {fs : Transaction} (hl : b.shift.length = fs.length) (hc : b.clk = false) :
    (b.run (wireForm fs)).shift = fs ∧ (b.run (wireForm fs)).latched = b.latched ++ [fs] ∧
    (b.run (wireForm fs)).csN = true ∧ (b.run (wireForm fs)).clk = false := by
  have hrun : b.run (wireForm fs) = ((chainBits fs).foldl Bus.clockIn (b.apply .csFall)).apply .csRise := by
    rw [← Bus.run_pulses, ← flatMap_frameEvents, wireForm]
    exact List.foldl_concat ..
  obtain ⟨hbits, hlen, hlatched, hclk⟩ := Bus.foldl_clockIn (chainBits fs) (b.apply .csFall)
  have hshift : ((chainBits fs).foldl Bus.clockIn (b.apply .csFall)).shift = fs := by
    refine eq_of_chainBits_eq (hlen.trans hl) (hbits.trans ?_)
    refine List.drop_left' ?_
    rw [length_chainBits, length_chainBits, ← hl]
    rfl
  rw [hrun]
  exact ⟨hshift, congrArg₂ (· ++ [·]) hlatched hshift, rfl, hclk hc⟩

/-- A history of full transactions. -/
theorem Bus.run_wireForms {n : Nat} {ts : List Transaction} (hts : ∀ x ∈ ts, x.length = n) {b : Bus}
    (hl : b.shift.length = n) (hcs : b.csN = true) (hc : b.clk = false) :
    (b.run (ts.flatMap wireForm)).latched = b.latched ++ ts ∧ (b.run (ts.flatMap wireForm)).csN = true ∧
    (b.run (ts.flatMap wireForm)).clk = false := by
  induction ts generalizing b with
  | nil => exact ⟨(List.append_nil _).symm, hcs, hc⟩
  | cons x ts ih =>
    obtain ⟨hx, hts⟩ := List.forall_mem_cons.mp hts
    obtain ⟨hshift, hlatched, hcs', hc'⟩ := Bus.run_wireForm (hl.trans hx.symm) hc
    have hrest := ih hts ((congrArg List.length hshift).trans hx) hcs' hc'
    rw [hlatched, List.append_assoc] at hrest
    rw [List.flatMap_cons, Bus.run, List.foldl_append]
    exact hrest

/-! ### The obligations -/

/-- Settles O14: what is sent follows from the shape of the effect, and a driver command is none of those that draw. -/
theorem driverTransactionsCarryOneFramePerDevice : Obligations.DriverTransactionsCarryOneFramePerDevice := by
  intro i s
  obtain ⟨t, ht, he⟩ := exec_effect i s
  obtain ⟨ts, hhist, hfull, hsent, hfault⟩ := he.sends
  exact ⟨t, ht, ts, hhist, hfull, hsent, fun hi => ⟨exec_keeps_fb (writesFb_driver hi) ht, hfault⟩⟩

/-- Settles O41: the five broadcasts each write one control register. -/
theorem ddInitForcesTheKnownState : Obligations.DdInitForcesTheKnownState := by
  intro s hd
  obtain ⟨t, ht, hsent, hread⟩ := sets_registers_of_bcasts (exec_ddInit s) (by simp [initWrites]) hd
  refine ⟨t, ht, hsent, fun k hk => ?_⟩
  simp only [hread k hk]
  refine ⟨rfl, rfl, rfl, rfl, rfl, fun r hr => readAfter_of_forall_ne (fun w hw heq => ?_) _⟩
  have hcontrol : ∀ w ∈ initWrites, isRow w.1 = false := by decide
  rw [heq, hcontrol w hw] at hr
  cases hr

/-- Settles O42: whatever the address, one broadcast goes out, and each device latches its own copy. -/
theorem ddBcastWritesOneRegisterEverywhere : Obligations.DdBcastWritesOneRegisterEverywhere := by
  intro a d s hd
  refine ⟨_, rfl, State.sent_drive s _ (by simp), fun k hk => ⟨fun ha r => ?_, fun r0 hr r => ?_⟩⟩
  · rw [State.drive_devRead]
    exact State.emit_devRead_noop s (length_bcast _ _ _) (getElem?_bcast a d hk) (by rw [frameAddr_frame, ha]) r
  · rw [State.drive_devRead]
    exact State.emit_bcast s (regAt_of_regAddr hr) hd hk r

/-- Settles O43: transaction `r` writes the register at address `8 - r` of each device, and no other transaction writes
it. -/
theorem ddSendTransmitsEveryCell : Obligations.DdSendTransmitsEveryCell := by
  intro s hd
  refine ⟨_, _, exec_ddSend s, State.sent_drive s _ (by simp [sendAll]), by simp [sendAll], fun r hr => ?_, ?_⟩
  · refine ⟨_, getElem?_sendAll _ _ hr, length_sendRow _ _ _, fun k d hk => ?_⟩
    refine ⟨rowByte s.cfg s.fb d r, rfl, getElem?_sendRow hk _ _, fun reg hreg => ?_⟩
    rw [← regAddr_sendReg hr] at hreg
    rw [drive_sendAll_devRead hd hk, regAddr_injective hreg, readAfter_sendWrites_row _ _ _ hr]
  · intro k reg hk hreg
    rw [drive_sendAll_devRead hd (List.getElem?_eq_getElem hk), readAfter_sendWrites_control _ _ _ hreg]

/-- Settles O44, rotation by rotation: which row-within-cell holds the pixel, and at which bit of its byte. -/
theorem cellPixelsReachTheirWireBits : Obligations.CellPixelsReachTheirWireBits := by
  rintro s k ⟨tx, ty, rot, mirror⟩ cx cy hk hx hy
  cases rot with
  | deg0 =>
    have hv := getLsbD_extH_column s.cfg s.fb tx.toInt (ty.toInt + cy) mirror hx
    cases mirror <;> exact pixel_on_wire hk cy hy rfl (by dsimp only; omega) hv
  | deg180 =>
    have hrow : ty.toInt + 7 - ((7 - cy : Nat) : Int) = ty.toInt + cy := by omega
    have hv := (getLsbD_extH_column s.cfg s.fb tx.toInt _ (!mirror) hx).trans (congrArg (pixOr s.cfg s.fb _) hrow)
    cases mirror <;> exact pixel_on_wire hk (7 - cy) (by omega) (by dsimp only; omega) (by dsimp only; omega) hv
  | cw90 =>
    have hv := getLsbD_extV_row s.cfg s.fb (tx.toInt + cx) ty.toInt (!mirror) hy
    cases mirror <;> exact pixel_on_wire hk cx hx rfl (by dsimp only; omega) hv
  | ccw90 =>
    have hcol : tx.toInt + 7 - ((7 - cx : Nat) : Int) = tx.toInt + cx := by omega
    have hv := (getLsbD_extV_row s.cfg s.fb _ ty.toInt mirror hy).trans (congrArg (pixOr s.cfg s.fb · (ty.toInt + cy)) hcol)
    cases mirror <;> exact pixel_on_wire hk (7 - cx) (by omega) (by dsimp only; omega) (by dsimp only; omega) hv

/-- Settles O46: a value up to 15 is the data byte of one broadcast. -/
theorem ddIntensitySetsEveryDevice : Obligations.DdIntensitySetsEveryDevice := by
  intro v s
  refine ⟨fun hv hd => ?_, fun hv hf => ?_⟩
  · exact sets_registers_of_bcasts (exec_ddIntensity_of_le hv) (List.cons_ne_nil _ _) hd
  · rw [← State.takeFault_of_running s _ _ hf]
    exact if_pos hv

/-- Settles O47: the list's length is checked before its values, and the frame for device `j` holds value `j`. -/
theorem ddIntensityPdSetsEachDevice : Obligations.DdIntensityPdSetsEachDevice := by
  intro vs s
  refine ⟨fun hl hv hd => ?_, fun hl hf => ?_, fun hl hv hf => ?_⟩
  · refine ⟨_, exec_ddIntensityPd_of_le hl hv, State.sent_drive s _ (by simp), fun k v hk r => ?_⟩
    have hlt : k < s.devreg.length := by
      rw [hd, ← hl]
      exact (List.getElem?_eq_some_iff.mp hk).1
    exact State.drive_devRead_of_writes (l := [vs]) (w := fun _ => intensityWrite v) hlt (by simpa [hk] using hl) r
  · rw [← State.takeFault_of_running s _ _ hf]
    exact if_pos hl
  · rw [← State.takeFault_of_running s _ _ hf]
    exact (if_neg (not_not.mpr hl)).trans (if_pos (by simpa [u32] using hv))

/-- Settles O48: one broadcast to register 12. -/
theorem ddShutdownBroadcastsTheMode : Obligations.DdShutdownBroadcastsTheMode := by
  intro on s hd
  cases on <;> exact sets_registers_of_bcasts (exec_ddShutdown _ s) (List.cons_ne_nil _ _) hd

/-- Settles O49: one broadcast to register 15. -/
theorem ddTestBroadcastsTheMode : Obligations.DdTestBroadcastsTheMode := by
  intro on s hd
  cases on <;> exact sets_registers_of_bcasts (exec_ddTest _ s) (List.cons_ne_nil _ _) hd

/-- Settles O50: the eight broadcasts write the eight row registers. -/
theorem ddClearZeroesTheDigits : Obligations.DdClearZeroesTheDigits := by
  intro s hd
  obtain ⟨t, ht, hsent, hread⟩ := sets_registers_of_bcasts (exec_ddClear s) (by simp [clearWrites]) hd
  refine ⟨t, ht, hsent, fun k hk r => ?_⟩
  rw [hread k hk]
  cases r <;> rfl

/-- Settles O51: of a full transaction a device latches the frame at its own place alone. -/
theorem eachDeviceLatchesItsOwnFrame : Obligations.EachDeviceLatchesItsOwnFrame := by
  intro s fs k f hn hd hf
  have hk : k < s.devreg.length := by
    rw [hd, ← hn]
    exact (List.getElem?_eq_some_iff.mp hf).1
  exact ⟨State.emit_devRead_noop s hn hf, fun r0 hr => State.emit_devRead s hn hk hf (regAt_of_regAddr hr)⟩

/-- Settles O55: after `16 * k` clock pulses the chain of `k` registers holds the bits sent, and nothing else. -/
theorem shiftingDeliversEachFrameToItsDevice : Obligations.ShiftingDeliversEachFrameToItsDevice :=
  fun _ _ => Bus.run_wireForm

/-- Settles O56, by induction on the history, whose transactions are full by the invariant. -/
theorem pinsDeliverTheWholeBusHistory : Obligations.PinsDeliverTheWholeBusHistory :=
  fun _ _ hs => Bus.run_wireForms hs.histFull

/-- Settles O2: the frame decodes to an instruction for the device, or its address is not assigned. -/
theorem stepRunsTheLatchedWireFrame : Obligations.StepRunsTheLatchedWireFrame :=
  fun _ _ _ _ hw hk =>
    ⟨fun _ hi => step_of_fetch_run ((fetch_wireFrame hw).trans (fetchWire_mapped hk hi)),
      fun hf => step_of_fetch_done ((fetch_wireFrame hw).trans (fetchWire_unassigned hk hf))⟩

/-- Settles O45: `DD.SEND` leaves the `FB` and the configuration that its transactions are computed from. -/
theorem sendingTwiceSendsTheSame : Obligations.SendingTwiceSendsTheSame := by
  intro s
  refine ⟨_, _, exec_ddSend s, exec_ddSend _, State.drive_fb s _, ?_, ?_⟩
  · simp [sendAll]
  · simp

/-- Settles O53: each wire instruction is one write to a register of the latching device. -/
theorem wireFramesWriteTheirRegister : Obligations.WireFramesWriteTheirRegister := by
  refine ⟨fun _ _ => rfl, fun p hp data s hs => ?_⟩
  have he : exec (p.1 data) s = .next (s.devWrite s.latchDev p.2 data) := by
    simp only [List.mem_cons, List.not_mem_nil, or_false] at hp
    rcases hp with rfl | rfl | rfl | rfl | rfl | rfl | rfl | rfl | rfl | rfl | rfl | rfl | rfl <;> rfl
  exact ⟨_, he, rfl, by simp, fun k r => State.devRead_devWrite_latching hs k p.2 r data⟩

/-- Settles O54: both ways write the register the address names, or none at the no-op address. -/
theorem latchingIsRunningTheWireFrame : Obligations.LatchingIsRunningTheWireFrame := by
  intro s k f i hi
  obtain ⟨h0, he⟩ | ⟨r, hr, he⟩ := exec_of_decodeWire hi
  · rw [he, State.latch_noop s h0]
  · rw [he, State.latch_assigned s hr]
    rfl

end Sys2Proof.Machine
end

section
/-! PROOFS. The statements of 60_exceptions: the order of the checks, what taking a fault records, and what a halted block
does. -/

namespace Sys2Proof.Machine

variable {s t : State} {i : Instr} {f : CmdFrame} {o : Op} {h : Word} {ws : List Word} {c : Cause}

/-! ### The order of the checks (60_exceptions R223) -/

theorem decodeCmd_bad_header (ho : opOf (hdrOp f.header) = some o) (hh : headerOk o f.header = false) :
    decodeCmd f = .error .reservedField := by
  simp [decodeCmd, ho, hh]

theorem decodeCmd_bad_length (ho : opOf (hdrOp f.header) = some o) (hh : headerOk o f.header = true)
    (hl : frameLen o f ≠ some f.length) : decodeCmd f = .error .framing := by
  simp [decodeCmd, ho, hh, hl]

/-- After the header and the length, what decodes is decided by the operand words alone. -/
theorem decodeCmd_eq_readOperands (ho : opOf (hdrOp f.header) = some o) (hh : headerOk o f.header = true)
    (hl : frameLen o f = some f.length) : decodeCmd f = readOperands o f.header f.operands := by
  simp [decodeCmd, ho, hh, hl]

theorem readV_error {n : Byte} {mk : Nat → Instr} (hr : readV n ws mk = .error c) : c = .reservedField := by
  unfold readV at hr
  split at hr
  · cases hr
  · exact (Except.error.inj hr).symm

theorem readBcast_error {w : Word} (hr : readBcast [w] = .error c) : c = .reservedField := by
  unfold readBcast at hr
  split at hr
  · split at hr
    · cases hr
    · exact (Except.error.inj hr).symm
  · next hne => exact absurd rfl (hne w)

theorem readCWRITE_error {q : Byte} {x y wd ht : Word} {ds : List Word}
    (hr : readCWRITE q (x :: y :: wd :: ht :: ds) = .error c) : c = .reservedField := by
  unfold readCWRITE at hr
  split at hr
  · exact (Except.error.inj hr).symm
  · dsimp only at hr
    split at hr
    · cases hr
    · exact (Except.error.inj hr).symm
  · next hne => exact absurd rfl (hne _ _ _ _ _)

/-- A frame of the length its format requires has one operand word fewer than that. -/
theorem operand_count {k : Nat} (hl : frameLen o ⟨h, ws⟩ = some (1 + ws.length))
    (hk : frameLen o ⟨h, ws⟩ = some (1 + k)) : ws.length = k :=
  Nat.add_left_cancel (Option.some.inj (hl.symm.trans hk))

/-- With the length its format requires, a frame has the operand words its reader looks for, and the reader can only find a
reserved field among them. -/
theorem readOperands_error_of_length (hl : frameLen o ⟨h, ws⟩ = some (1 + ws.length))
    (hr : readOperands o h ws = .error c) : c = .reservedField := by
  cases o with
  | brSet | brFlip =>
    match ws with
    | _ :: _ :: _ => exact readV_error hr
    | [] | [_] => simp [frameLen, Op.row] at hl; omega
  | brExtract =>
    match ws with
    | _ :: _ => exact readV_error hr
    | [] => simp [frameLen, Op.row] at hl; omega
  | brReverse => exact readV_error hr
  | fbWrite =>
    match ws with
    | _ :: _ :: _ :: _ :: _ => exact readCWRITE_error hr
    | [] | [_] | [_, _] | [_, _, _] => cases hl
  | ddIntensityPd =>
    match ws with
    | _ :: _ => cases hr
    | [] => cases hl
  | ddBcast =>
    obtain ⟨w, rfl⟩ := List.length_eq_one_iff.mp (operand_count hl rfl)
    exact readBcast_error hr
  | ddIntensity =>
    obtain ⟨v, rfl⟩ := List.length_eq_one_iff.mp (operand_count hl rfl)
    cases hr
  | fbClear =>
    obtain ⟨x, y, wd, ht, rfl⟩ := List.length_eq_four.mp (operand_count hl rfl)
    cases hr
  | fbTurnDot | fbExtH | fbExtV =>
    obtain ⟨x, y, rfl⟩ := List.length_eq_two.mp (operand_count hl rfl)
    cases hr
  | fbClearAll | fbWidth | fbHeight | ddInit | ddSend | ddShutdown | ddTest | ddClear =>
    obtain rfl := List.length_eq_zero_iff.mp (operand_count hl rfl)
    cases hr

/-! ### Which command raises which cause (60_exceptions R221) -/

/-- The table of causes: the `OP` values of the commands that raise each. -/
def RaisedBy (op : Byte) : Cause → Prop
  | .illegalOpcode => opOf op = none
  | .reservedField => opOf op ≠ none
  | .framing => opOf op ≠ none
  | .brStart => op = 0x01 ∨ op = 0x02 ∨ op = 0x03
  | .intensityLength => op = 0x24
  | .intensityValue => op = 0x23 ∨ op = 0x24

theorem raisedBy_of_decodeCmd (hd : decodeCmd f = .error c) : RaisedBy (hdrOp f.header) c := by
  obtain ⟨rfl, ho⟩ | ⟨rfl | rfl, ho⟩ := decodeCmd_error hd <;> exact ho

/-- An instruction leaves `FAULT`, or it is a command whose own check failed, and then its only effect is its fault. -/
theorem exec_keeps_or_takes_fault (ht : exec i s = .next t) : t.fault = s.fault ∨
    ∃ f c, encode i = .cmd f ∧ RaisedBy (hdrOp f.header) c ∧ t = s.takeFault (hdrOp f.header) c := by
  cases i with
  | brSet | brFlip | brExtract =>
    simp only [exec, execBrSet, execBrFlip, execBrExtract] at ht
    split at ht
    · cases ht
      exact .inr ⟨_, .brStart, rfl, by simp [RaisedBy, Op.code, Op.row], by simp⟩
    · cases ht
      exact .inl rfl
  | ddIntensity =>
    simp only [exec, execDdIntensity] at ht
    split at ht
    · cases ht
      exact .inr ⟨_, .intensityValue, rfl, by simp [RaisedBy, Op.code, Op.row], by simp⟩
    · cases ht
      exact .inl (by simp)
  | ddIntensityPd =>
    simp only [exec, execDdIntensityPd] at ht
    split at ht
    · cases ht
      exact .inr ⟨_, .intensityLength, rfl, by simp [RaisedBy, Op.code, Op.row], by simp⟩
    · split at ht
      · cases ht
        exact .inr ⟨_, .intensityValue, rfl, by simp [RaisedBy, Op.code, Op.row], by simp⟩
      · cases ht
        exact .inl (by simp)
  | _ =>
    cases ht
    exact .inl (by simp)

/-! ### Where `FAULT` changes (60_exceptions R224 to R226) -/

/-- A block not halted becomes halted only by taking the fault of the command frame at the head of the queue. -/
theorem step_faults_precisely (hs : faultV s.fault = false) (h : step s = .next t) (ht : faultV t.fault = true) :
    ∃ f rest c, s.cmdIn = .frame f :: rest ∧ RaisedBy (hdrOp f.header) c ∧
      t = ({ s with cmdIn := rest } : State).faulted (hdrOp f.header) c := by
  have unchanged : t.fault ≠ s.fault := fun he => by simp [he, hs] at ht
  cases step_cases h with
  | waited | turnedAway | unassigned => exact absurd rfl unchanged
  | reset => simp [faultV] at ht
  | malformed f c rest _ hc _ hd =>
    exact ⟨f, rest, c, hc, raisedBy_of_decodeCmd hd, State.takeFault_of_running _ _ _ hs⟩
  | command f i rest _ _ hc _ hd he =>
    obtain hk | ⟨f', c, hf', hr, rfl⟩ := exec_keeps_or_takes_fault he
    · exact absurd hk unchanged
    · cases hf'.symm.trans (encode_of_decodeCmd hd).2
      exact ⟨f, rest, c, hc, hr, State.takeFault_of_running _ _ _ hs⟩
  | wire _ _ _ _ _ _ _ hd he =>
    obtain hk | ⟨f', _, hf', -⟩ := exec_keeps_or_takes_fault he
    · exact absurd hk unchanged
    · cases hf'.symm.trans (encode_of_decodeWire hd).2

/-- Faults do not nest: a recorded fault survives every instruction. -/
theorem exec_keeps_recorded_fault (ht : exec i s = .next t) (hs : faultV s.fault = true) : t.fault = s.fault := by
  obtain hk | ⟨f, c, -, -, rfl⟩ := exec_keeps_or_takes_fault ht
  · exact hk
  · simp [hs]

/-! ### The obligations -/

/-- Settles O5: of what a step can be, only the reset writes a `FAULT` that is already recorded. -/
theorem onlyResetLeavesTheHaltedState : Obligations.OnlyResetLeavesTheHaltedState := by
  intro s t hs h
  cases step_cases h with
  | waited | turnedAway | unassigned => exact .inl rfl
  | reset rest hw hc => exact .inr ⟨rfl, hw, rest, hc⟩
  | malformed => exact .inl (by simp [hs])
  | command _ _ _ _ _ _ _ _ he => exact .inl (exec_keeps_recorded_fault he hs :)
  | wire _ _ _ _ _ _ _ _ he => exact .inl (exec_keeps_recorded_fault he hs :)

/-- Settles O6: the fault is that of a malformed frame or of the check of a legal one, and both name the frame's `OP`. -/
theorem faultsArePreciseAndNameTheirCommand : Obligations.FaultsArePreciseAndNameTheirCommand := by
  intro s t hs h ht
  obtain ⟨f, rest, c, hc, hr, rfl⟩ := step_faults_precisely hs h ht
  obtain ⟨-, -, hcause, -⟩ := faultWord_fields (hdrOp f.header) c
  refine ⟨f, rest, c, hc, rfl, ?_, hr⟩
  rw [State.faulted, hcause]
  cases c <;> rfl

/-- Settles O20, check by check; the list's length comes first among the checks of `DD.INTENSITYPD`. -/
theorem faultsAreReportedInPriorityOrder : Obligations.FaultsAreReportedInPriorityOrder := by
  refine ⟨fun f => decodeCmd_illegal_iff.mpr, fun f o => decodeCmd_bad_header, fun f o => decodeCmd_bad_length,
    fun f o c ho hh hl hd => ?_, fun s vs hs hl => ?_⟩
  · exact readOperands_error_of_length hl ((decodeCmd_eq_readOperands ho hh hl).symm.trans hd)
  · obtain ⟨-, hlen, -⟩ := ddIntensityPdSetsEachDevice vs s
    exact hlen hl hs

/-- Settles O3: the step takes the fault of the frame's decoding, and the word it records has the stated fields. -/
theorem malformedCommandTakesItsFault : Obligations.MalformedCommandTakesItsFault := by
  intro s f rest c hw hc hf hd
  exact ⟨_, step_of_fetch_done ((fetch_command hw hc).trans (fetchFrame_malformed hf hd)), rfl, faultWord_fields _ _⟩

/-- Settles O4: a halted block answers before it decodes the frame. -/
theorem haltedBlockOnlyAnswersHalted : Obligations.HaltedBlockOnlyAnswersHalted :=
  fun _ f _ hw hc hf => step_of_fetch_done ((fetch_command hw hc).trans (fetchFrame_halted f hf))

end Sys2Proof.Machine
end

section
/-! PROOFS. The statements of 70_reset_and_hazards: what waiting and a reset leave, and how long the driver commands take in
clock periods. -/

namespace Sys2Proof.Machine

variable {s : State} {i : Instr}

/-! ### No command to take (70_reset_and_hazards R250, R251) -/

theorem fetch_idle (hw : s.wireIn = []) (hc : s.cmdIn = []) : fetch s = .done s := by
  rw [fetch, hw, hc]

theorem fetch_rst {rest : List HostInput} (hw : s.wireIn = []) (hc : s.cmdIn = .rst :: rest) :
    fetch s = .done ({ s with cmdIn := rest } : State).blockReset := by
  rw [fetch, hw, hc]

theorem faultV_zero : faultV 0 = false := by decide

/-! ### Clock periods (70_reset_and_hazards R264)

One period goes with each bit sent, so the count follows from the bits of the chain (`chainBits`). -/

@[simp] theorem clockPeriods_append (es es' : List PinEvent) :
    clockPeriods (es ++ es') = clockPeriods es + clockPeriods es' := List.countP_append

theorem clockPeriods_pulses (bs : List Bool) : clockPeriods (bs.flatMap pulse) = bs.length := by
  induction bs with
  | nil => rfl
  | cons b bs ih =>
    have hone : clockPeriods (pulse b) = 1 := rfl
    rw [List.flatMap_cons, clockPeriods_append, ih, hone, List.length_cons, Nat.add_comm]

theorem clockPeriods_wireForm (fs : Transaction) : clockPeriods (wireForm fs) = 16 * fs.length :=
  calc clockPeriods (wireForm fs)
    _ = clockPeriods [.csFall] + clockPeriods (fs.flatMap frameEvents) + clockPeriods [.csRise] := by
      rw [← clockPeriods_append, ← clockPeriods_append]
      rfl
    _ = clockPeriods (fs.flatMap frameEvents) := by simp [clockPeriods]
    _ = 16 * fs.length := by rw [flatMap_frameEvents, clockPeriods_pulses, length_chainBits]

/-- Transactions of `n` frames each. -/
theorem clockPeriods_wireForms {n : Nat} {ts : List Transaction} (hts : ∀ x ∈ ts, x.length = n) :
    clockPeriods (ts.flatMap wireForm) = 16 * ts.length * n := by
  induction ts with
  | nil => simp [clockPeriods]
  | cons x ts ih =>
    obtain ⟨hx, hts⟩ := List.forall_mem_cons.mp hts
    rw [List.flatMap_cons, clockPeriods_append, clockPeriods_wireForm, hx, ih hts, List.length_cons]
    ring

/-- A command that drives full transactions adds 16 periods for each of them and each device. -/
theorem exec_adds_clockPeriods {ts : List Transaction} (he : exec i s = .next (s.drive ts))
    (hts : ∀ x ∈ ts, x.length = s.cfg.n) :
    ∃ t, exec i s = .next t ∧ clockPeriods t.waveform = clockPeriods s.waveform + 16 * ts.length * s.cfg.n := by
  refine ⟨_, he, ?_⟩
  rw [State.waveform, State.drive_busHist, List.flatMap_append, clockPeriods_append, clockPeriods_wireForms hts,
    State.waveform]

/-- Broadcasts are full. -/
theorem exec_adds_clockPeriods_of_bcasts {ws : List (DevReg × Byte)}
    (he : exec i s = .next (s.drive (ws.map (bcastWrite s.cfg)))) :
    ∃ t, exec i s = .next t ∧ clockPeriods t.waveform = clockPeriods s.waveform + 16 * ws.length * s.cfg.n := by
  have h := exec_adds_clockPeriods he (List.forall_mem_map.mpr fun _ _ => List.length_replicate)
  rwa [List.length_map] at h

/-! ### The obligations -/

/-- Settles O57: a clock period goes with each bit, and each command sends its number of full transactions. -/
theorem commandsTakeTheirClockPeriods : Obligations.CommandsTakeTheirClockPeriods := by
  refine ⟨clockPeriods_wireForm, fun s => ⟨?send, ?clear, ?init, fun a d => ?bcast, fun on => ?shutdown, fun on => ?test,
    fun v hv => ?intensity, fun vs hl hv => ?intensityPd⟩⟩
  case send => exact exec_adds_clockPeriods (exec_ddSend s) (full_sendAll _ _)
  case clear => exact exec_adds_clockPeriods_of_bcasts (exec_ddClear s)
  case init => exact exec_adds_clockPeriods_of_bcasts (exec_ddInit s)
  case bcast => exact exec_adds_clockPeriods (ts := [bcast s.cfg a d]) rfl (by simp)
  case shutdown => exact exec_adds_clockPeriods_of_bcasts (exec_ddShutdown on s)
  case test => exact exec_adds_clockPeriods_of_bcasts (exec_ddTest on s)
  case intensity => exact exec_adds_clockPeriods_of_bcasts (exec_ddIntensity_of_le hv)
  case intensityPd => exact exec_adds_clockPeriods (exec_ddIntensityPd_of_le hl hv) (by simpa using hl)

/-- Settles O7: the fetch finds nothing to do. -/
theorem waitingBlockChangesNothing : Obligations.WaitingBlockChangesNothing :=
  fun _ hw hc => step_of_fetch_done (fetch_idle hw hc)

/-- Settles O8: power-up and the reset draw a frame buffer of the right form and set the other fields. -/
theorem resetLeavesTheStatedValues : Obligations.ResetLeavesTheStatedValues := by
  refine ⟨fun c => ⟨rfl, rfl, rfl, rfl, rfl, fbInit_wf _, ?_⟩, fun s rest hw hc => ?_⟩
  · simp [State.powerUp]
  · exact ⟨_, step_of_fetch_done (fetch_rst hw hc), rfl, faultV_zero, rfl, rfl, rfl, rfl, fbInit_wf _, rfl, rfl⟩

end Sys2Proof.Machine
end
